-- ==== Sys2Proof/Word.lean ====
section
/-! DEFINITION. The machine's one word type: a `u8` (00_scope.md R8). -/

namespace Sys2Proof

/-- A `u8`: the accumulator, every byte of memory, an opcode byte, an operand byte (00_scope.md R8, 10_state.md R21,
20_memory.md R50). -/
abbrev Byte := BitVec 8

end Sys2Proof
end

