-- ==== Sys2Proof/Config.lean ====
section
/-! DEFINITION. What is fixed for the machine (00_scope.md R5). The memory size `L` is no constant of the design but a parameter
of each launch (R6): it stands in `Memory.size`. The spec leaves no value free, so no opaque constant stands here. -/

namespace Sys2Proof.Config

/-- The magic header `03 4E 44 52` (00_scope.md R5, 70_reset_and_hazards.md R221). -/
def magic : List Byte := [0x03#8, 0x4E#8, 0x44#8, 0x52#8]

/-- The offset of cell 0: the header is 4 bytes (20_memory.md R51). -/
def headerBytes : Nat := 4

/-- A cell is 2 bytes, the significant byte first (20_memory.md R51, R56); this is also the fetch stride (40_cycle.md R102). -/
def cellBytes : Nat := 2

/-- The entry point: PC at reset, the offset of cell 0 (10_state.md R23, 70_reset_and_hazards.md R222). -/
def entryPc : Nat := 4

end Sys2Proof.Config
end

