-- ==== Sys2Proof/Syntax.lean ====
section
/-! DEFINITION. The instructions of the opcode table (30_encoding.md R75) and the abstract syntax of the spec's own
assembler (30_encoding.md R79). -/

namespace Sys2Proof

/-- The 11 opcodes, one for each row of the opcode table (30_encoding.md R75). -/
inductive Opcode where
  | nop | sta | lda | add | or | and | not | jmp | jn | jz | hlt
  deriving DecidableEq, Repr

/-- An instruction with its operand byte `v`, a virtual cell address 0..255 (30_encoding.md R70, R73, R75). NOT carries its
operand byte too: the byte is fetched and then ignored (42_alu.md R144), and the step's event shows it (40_cycle.md R109). -/
inductive Instr where
  | nop
  | sta (v : Byte)
  | lda (v : Byte)
  | add (v : Byte)
  | or (v : Byte)
  | and (v : Byte)
  | not (v : Byte)
  | jmp (v : Byte)
  | jn (v : Byte)
  | jz (v : Byte)
  | hlt
  deriving DecidableEq, Repr

/-- What an opcode asks of the fetch (30_encoding.md R70): format Z is complete in one cell, format A takes the
significant byte of the next cell as its operand. -/
inductive Format where
  | z (i : Instr)
  | a (withOperand : Byte → Instr)

/-- An address as the assembler's grammar spells it: `addr := decimal 0..255 | label` (30_encoding.md R79). -/
inductive AsmAddr where
  | number (v : Nat)
  | label (name : String)
  deriving DecidableEq, Repr

/-- An item of the assembler's grammar (30_encoding.md R79): `NOP`, `HLT`, `NOT` (written with no operand), a mnemonic
with an address, or one data cell. -/
inductive AsmItem where
  | nop
  | hlt
  | not
  | address (m : Opcode) (a : AsmAddr)
  | byte (n : Nat)
  deriving DecidableEq, Repr

/-- `line := [label ":"] item` (30_encoding.md R79). -/
structure AsmLine where
  label : Option String
  item : AsmItem
  deriving DecidableEq, Repr

end Sys2Proof
end

