-- ==== Sys2Proof/WellFormed.lean ====
section
/-! DEFINITION. The checks on what comes from outside the machine. Every term of `Instr` is well-formed by its type: the one
operand form is a byte, and every byte 0..255 is an operand (30_encoding.md R73), so `Instr` needs no check. What can be
ill-formed is an image given to the loader (70_reset_and_hazards.md R221) and an item given to the assembler
(30_encoding.md R79). -/

namespace Sys2Proof

/-- The loader's header check: at least 4 bytes, and the first four are exactly `03 4E 44 52`
(70_reset_and_hazards.md R221). A buffer shorter than 4 bytes has no such prefix (the spec's decision D19). DESIGN CHOICE, unsafe: log
entry 11. -/
def imageWellFormed (img : List Byte) : Bool :=
  img.take Config.headerBytes == Config.magic

/-- The eight mnemonics the grammar writes with an address: `m in STA LDA ADD OR AND JMP JN JZ` (30_encoding.md R79). -/
def Opcode.takesAddress : Opcode → Bool
  | .nop => false
  | .sta => true
  | .lda => true
  | .add => true
  | .or => true
  | .and => true
  | .not => false
  | .jmp => true
  | .jn => true
  | .jz => true
  | .hlt => false

/-- `addr := decimal 0..255 | label` (30_encoding.md R79). -/
def AsmAddr.wellFormed : AsmAddr → Bool
  | .number v => v ≤ 255
  | .label _ => true

/-- An item of the grammar: an address form has one of the eight mnemonics and a number in range, a data cell holds
0..255 (30_encoding.md R79). -/
def AsmItem.wellFormed : AsmItem → Bool
  | .nop => true
  | .hlt => true
  | .not => true
  | .address m a => m.takesAddress && a.wellFormed
  | .byte n => n ≤ 255

end Sys2Proof
end

