-- ==== Sys2Proof/Decode.lean ====
section
/-! DEFINITION. Decoding, total on any bytes, and encoding (30_encoding.md R70 to R77). -/

namespace Sys2Proof

/-- The opcode map: the whole byte is compared, no bit is masked, and a byte equal to none of the 11 values decodes to
`none` (30_encoding.md R74, R75, R76). -/
def decodeOpcode (b : Byte) : Option Opcode :=
  match b.toNat with
  | 0x00 => some .nop
  | 0x10 => some .sta
  | 0x20 => some .lda
  | 0x30 => some .add
  | 0x40 => some .or
  | 0x50 => some .and
  | 0x60 => some .not
  | 0x80 => some .jmp
  | 0x90 => some .jn
  | 0xA0 => some .jz
  | 0xF0 => some .hlt
  | _ => none

/-- The format column of the opcode map: NOP and HLT are format Z, all others format A, NOT included
(30_encoding.md R70, R75; 90_conflicts.md C1). That NOT is format A is a DESIGN CHOICE of the spec (D8), unsafe: log entry 6. -/
def Opcode.format : Opcode → Format
  | .nop => .z .nop
  | .sta => .a .sta
  | .lda => .a .lda
  | .add => .a .add
  | .or => .a .or
  | .and => .a .and
  | .not => .a .not
  | .jmp => .a .jmp
  | .jn => .a .jn
  | .jz => .a .jz
  | .hlt => .z .hlt

/-- Whether an operand cell follows (30_encoding.md R70). -/
def Opcode.hasOperand (o : Opcode) : Bool :=
  match o.format with
  | .z _ => false
  | .a _ => true

/-- The length of an instruction in cells, from its opcode byte alone; an unknown byte takes one cell
(30_encoding.md R76, R77). -/
def lengthCells (b : Byte) : Nat :=
  match decodeOpcode b with
  | none => 1
  | some o => if o.hasOperand then 2 else 1

/-- The mnemonic spelling (30_encoding.md R75, 45_disassembler.md R181). -/
def Opcode.mnemonic : Opcode → String
  | .nop => "NOP"
  | .sta => "STA"
  | .lda => "LDA"
  | .add => "ADD"
  | .or => "OR"
  | .and => "AND"
  | .not => "NOT"
  | .jmp => "JMP"
  | .jn => "JN"
  | .jz => "JZ"
  | .hlt => "HLT"

/-- The 11 opcodes in the order of the table. -/
def Opcode.all : List Opcode := [.nop, .sta, .lda, .add, .or, .and, .not, .jmp, .jn, .jz, .hlt]

/-- The opcode of an instruction (40_cycle.md R109). -/
def Instr.opcode : Instr → Opcode
  | .nop => .nop
  | .sta _ => .sta
  | .lda _ => .lda
  | .add _ => .add
  | .or _ => .or
  | .and _ => .and
  | .not _ => .not
  | .jmp _ => .jmp
  | .jn _ => .jn
  | .jz _ => .jz
  | .hlt => .hlt

/-- The operand byte: present for format A, absent for NOP and HLT (40_cycle.md R109). -/
def Instr.operand : Instr → Option Byte
  | .nop => none
  | .sta v => some v
  | .lda v => some v
  | .add v => some v
  | .or v => some v
  | .and v => some v
  | .not v => some v
  | .jmp v => some v
  | .jn v => some v
  | .jz v => some v
  | .hlt => none

/-- Why a byte sequence is rejected. -/
inductive DecodeError where
  /-- There is no opcode byte. -/
  | noOpcode
  /-- The opcode byte is none of the 11 (30_encoding.md R76). -/
  | unknownOpcode (op : Byte)
  /-- The bytes end before the operand's significant byte. -/
  | noOperand (o : Opcode)
  deriving DecidableEq, Repr

/-- What the decoder answers: an instruction with the bytes after it, or a rejection by name. -/
inductive Decoded where
  | instr (i : Instr) (rest : List Byte)
  | rejected (why : DecodeError)
  deriving DecidableEq, Repr

/-- Decode the first instruction of a byte stream laid out in cells (30_encoding.md R71, R72). Padding is skipped unread, and
may be missing after the last significant byte (20_memory.md R52). -/
def decode : List Byte → Decoded
  | [] => .rejected .noOpcode
  | op :: afterOp =>
    match decodeOpcode op with
    | none => .rejected (.unknownOpcode op)
    | some o =>
      match o.format with
      | .z i => .instr i (afterOp.drop 1)
      | .a withOperand =>
        match afterOp.drop 1 with
        | [] => .rejected (.noOperand o)
        | v :: afterOperand => .instr (withOperand v) (afterOperand.drop 1)

/-- The opcode byte of each row of the table (30_encoding.md R75). -/
def Opcode.byte : Opcode → Byte
  | .nop => 0x00#8
  | .sta => 0x10#8
  | .lda => 0x20#8
  | .add => 0x30#8
  | .or => 0x40#8
  | .and => 0x50#8
  | .not => 0x60#8
  | .jmp => 0x80#8
  | .jn => 0x90#8
  | .jz => 0xA0#8
  | .hlt => 0xF0#8

/-- A cell as a 16-bit little-endian word: significant byte low, padding high (20_memory.md R56). -/
def cellWord (significant padding : Byte) : BitVec 16 := padding ++ significant

/-- The cell words of an instruction, `[pp op] [pp v]` (30_encoding.md R71, R72), with the padding given: the first for the
opcode cell, the second for the operand cell. -/
def encodeWords (pad0 pad1 : Byte) (i : Instr) : List (BitVec 16) :=
  match i.operand with
  | none => [cellWord i.opcode.byte pad0]
  | some v => [cellWord i.opcode.byte pad0, cellWord v pad1]

/-- A cell word as memory holds it, the significant byte at the lower offset (20_memory.md R56). -/
def wordBytes (w : BitVec 16) : List Byte := [w.extractLsb' 0 8, w.extractLsb' 8 8]

/-- The bytes of an instruction with the padding given. -/
def encodeWith (pad0 pad1 : Byte) (i : Instr) : List Byte :=
  (encodeWords pad0 pad1 i).flatMap wordBytes

/-- The bytes of an instruction, padding 0 (30_encoding.md R79 assembles padding as 0; the spec's decision D18). -/
def encode (i : Instr) : List Byte := encodeWith 0#8 0#8 i

/-- The four bytes of an instruction numbered as the opcode table numbers its bits: byte 0 is bits 7..0, byte 1 bits 15..8,
and so on; every bit from `nbits` up is 0. DEDUCED, safe: log entry 19. -/
def tableBytes (nbits w : Nat) : List Byte :=
  let x := w % 2 ^ nbits
  [BitVec.ofNat 8 x, BitVec.ofNat 8 (x / 2 ^ 8), BitVec.ofNat 8 (x / 2 ^ 16), BitVec.ofNat 8 (x / 2 ^ 24)]

/-- The instruction the decoder reads from a word numbered as the opcode table numbers it. -/
def decodeTableWord (nbits w : Nat) : Option Instr :=
  match decode (tableBytes nbits w) with
  | .instr i _ => some i
  | .rejected _ => none

/-- The same numbering the other way: an instruction's bits as one number, padding 0. -/
def tableWord (i : Instr) : Nat :=
  i.opcode.byte.toNat + 2 ^ 16 * (i.operand.getD 0#8).toNat

/-- The number of bits the opcode table gives an instruction: 16 for each cell. -/
def tableBits (i : Instr) : Nat := if i.opcode.hasOperand then 32 else 16

end Sys2Proof
end

