-- ==== Sys2Proof/Machine/State.lean ====
section
/-! DEFINITION. The architectural state, exactly the tuple of 10_state.md R20, as plain data; the outcomes a step can have; the
events a step reports; the state after reset. -/

namespace Sys2Proof.Machine

/-- The phase of an out-of-bounds access (10_state.md R30, 60_exceptions.md R202). -/
inductive Phase where
  | fetch | operand | data
  deriving DecidableEq, Repr

/-- The value of the out-of-bounds run status: the phase, and the physical offset whose bounds test failed
(10_state.md R30). -/
structure OutOfBounds where
  phase : Phase
  offset : Nat
  deriving DecidableEq, Repr

/-- The memory buffer `mem[0 .. L-1]` (10_state.md R32, 20_memory.md R50). `size` is `L`; `cells` lists, at strictly rising
offsets, the bytes that differ from `Memory.unlisted` (log entry 3: a way to write the buffer down, not a departure). -/
structure Memory where
  size : Nat
  cells : List Host.Cell
  deriving DecidableEq, Repr

/-- What an offset below `L` that is not listed reads as. DESIGN CHOICE, safe: log entry 3. -/
def Memory.unlisted : Byte := 0#8

/-- The entries from offset `lo` on are in canonical form: strictly rising, below `hi`, none equal to what an unlisted offset
reads as. -/
def Memory.canonicalFrom (hi : Nat) : Nat → List Host.Cell → Bool
  | _, [] => true
  | lo, (k, b) :: rest => decide (lo ≤ k) && decide (k < hi) && (b != unlisted) && canonicalFrom hi (k + 1) rest

/-- The canonical form: equal memories are equal data. -/
def Memory.wf (m : Memory) : Bool := canonicalFrom m.size 0 m.cells

/-- The architectural state, "exactly this tuple" (10_state.md R20). -/
structure State where
  /-- The memory buffer with its length `L`, header included (R32). -/
  mem : Memory
  /-- The accumulator AC (R21). -/
  ac : Byte
  /-- The program counter PC, a physical byte offset, a natural number that does not wrap (R23; the spec's decision D2). -/
  pc : Nat
  /-- The zero flag Z (R26). -/
  z : Bool
  /-- The negative flag N (R27). -/
  n : Bool
  /-- The halt state HALT (R29). -/
  halt : Bool
  /-- The out-of-bounds run status OOB (R30; the spec's decision D5). -/
  oob : Option OutOfBounds
  deriving DecidableEq, Repr

/-- Why the machine can stop with no next state. `step` and `exec` never do: an out-of-bounds access and a halt are next
states, since the spec gives them whole. DEDUCED: log entry 4. -/
inductive Fault where
  /-- Raised by `load` alone, when the image has no magic header: "no engine instance" is produced
  (70_reset_and_hazards.md R221). Safe: the spec names this failure, and no state exists after it. -/
  | invalidFormat
  deriving DecidableEq, Repr

/-- Why an instruction has no meaning. -/
inductive Refusal where
  /-- Raised by `exec` alone, for an instruction the model gives no meaning yet. No arm of `exec` raises it: all 11
  instructions have their meaning. Safe: a refusal proves nothing about the hardware. -/
  | notModelled (mnemonic : String)
  deriving DecidableEq, Repr

/-- The answer of a step or a meaning. -/
abbrev Answer := Host.Outcome State Fault Refusal

/-- What the opcode fetch and the operand fetch of a step find (40_cycle.md R102 to R105). -/
inductive Fetched where
  | instr (i : Instr)
  | unknown (op : Byte)
  | outOfBounds (phase : Phase) (offset : Nat)
  deriving DecidableEq, Repr

/-- The one event a step returns (40_cycle.md R109). `executed` carries the instruction with its operand byte. -/
inductive StepEvent where
  | noOp
  | executed (i : Instr)
  | skipped (op : Byte) (offset : Nat)
  | outOfBounds (phase : Phase) (offset : Nat)
  deriving DecidableEq, Repr

/-- The state right after reset (70_reset_and_hazards.md R222), where reset is the load of an image (R220). The image is an
input of the launch; here it is the smallest one the loader accepts, the magic header alone, with `L = 4` (R223). DESIGN
CHOICE, unsafe: log entry 1. -/
def State.reset : State where
  mem := { size := 4, cells := [(0, 0x03#8), (1, 0x4E#8), (2, 0x44#8), (3, 0x52#8)] }
  ac := 0#8
  pc := Config.entryPc
  z := true
  n := false
  halt := false
  oob := none

end Sys2Proof.Machine
end

