-- ==== Sys2Proof/Machine/Ops.lean ====
section
/-! DEFINITION. The named operations over memory and registers, and the one operation that raises OutOfBounds. The spec has no
trap entry and no return from one (60_exceptions.md R206): an OutOfBounds condition ends the run in place. -/

namespace Sys2Proof.Machine

/-- The bounds predicate `inb(o) := o < L` (20_memory.md R54; the spec's decision D4). DESIGN CHOICE, unsafe: log entry 8. -/
def Memory.inb (m : Memory) (o : Nat) : Bool := decide (o < m.size)

/-- The byte listed at an offset, or what an unlisted offset reads as. -/
def Memory.lookup (o : Nat) : List Host.Cell → Byte
  | [] => Memory.unlisted
  | (k, b) :: rest => if k = o then b else Memory.lookup o rest

/-- `MemRead(o, 1)` behind its bounds test (00_scope.md R9, 20_memory.md R54): no byte beyond the buffer is ever read. -/
def Memory.load (m : Memory) (o : Nat) : Option Byte :=
  if m.inb o then some (Memory.lookup o m.cells) else none

/-- List a byte at an offset, keeping the canonical form. -/
def Memory.insert (o : Nat) (b : Byte) : List Host.Cell → List Host.Cell
  | [] => if b = Memory.unlisted then [] else [(o, b)]
  | (k, c) :: rest =>
    if o < k then (if b = Memory.unlisted then (k, c) :: rest else (o, b) :: (k, c) :: rest)
    else if o = k then (if b = Memory.unlisted then rest else (o, b) :: rest)
    else (k, c) :: Memory.insert o b rest

/-- `MemWrite(o, 1, b)` behind its bounds test (00_scope.md R9, 20_memory.md R54, R58): one byte, nothing else. -/
def Memory.store (m : Memory) (o : Nat) (b : Byte) : Option Memory :=
  if m.inb o then some { m with cells := Memory.insert o b m.cells } else none

/-- The entries of a byte buffer laid down from an offset on. -/
def Memory.cellsFrom : Nat → List Byte → List Host.Cell
  | _, [] => []
  | o, b :: rest =>
    if b = Memory.unlisted then Memory.cellsFrom (o + 1) rest else (o, b) :: Memory.cellsFrom (o + 1) rest

/-- The memory that holds a byte buffer, `L` its length (70_reset_and_hazards.md R222). -/
def Memory.ofBytes (img : List Byte) : Memory := { size := img.length, cells := Memory.cellsFrom 0 img }

/-- The raw memory buffer, all `L` bytes (10_state.md R36). -/
def Memory.toBytes (m : Memory) : List Byte := (List.range m.size).map fun o => Memory.lookup o m.cells

/-- The bytes that exist from an offset on, at most `k` of them. -/
def Memory.window (m : Memory) (o : Nat) : Nat → List Byte
  | 0 => []
  | k + 1 =>
    match m.load o with
    | none => []
    | some b => b :: m.window (o + 1) k

/-- The number of valid cells, `floor((L - 3) / 2)` (20_memory.md R52). -/
def Memory.cellCount (m : Memory) : Nat := (m.size - 3) / 2

/-- `AC <- b` (00_scope.md R9). -/
def State.setAc (s : State) (b : Byte) : State := { s with ac := b }

/-- `PC <- o` (00_scope.md R9). -/
def State.setPc (s : State) (o : Nat) : State := { s with pc := o }

/-- The buffer after a write. -/
def State.setMem (s : State) (m : Memory) : State := { s with mem := m }

/-- `Z <- z` and `N <- n` (00_scope.md R9). -/
def State.setFlags (s : State) (zn : Bool × Bool) : State := { s with z := zn.1, n := zn.2 }

/-- `HALT <- true`, the only write of HALT (10_state.md R29). -/
def State.setHalt (s : State) : State := { s with halt := true }

/-- `raise OutOfBounds(phase, offset)`: the step commits exactly this one change (40_cycle.md R108). The caller applies it to the
state at the start of the step, so the fetch advances of that step are discarded: the spec's decision D6. DESIGN CHOICE, unsafe: log entry 5. -/
def State.raise (s : State) (phase : Phase) (offset : Nat) : State := { s with oob := some ⟨phase, offset⟩ }

/-- Move PC past the cells of an instruction, 2 bytes a cell (40_cycle.md R102, R105, R113). -/
def State.advance (s : State) (cells : Nat) : State := s.setPc (s.pc + Config.cellBytes * cells)

/-- A state is terminal iff `HALT = true` or `OOB != none` (10_state.md R31). -/
def State.terminal (s : State) : Bool := s.halt || s.oob.isSome

end Sys2Proof.Machine
end

