-- ==== Sys2Proof/Machine/Flags.lean ====
section
/-! DEFINITION. The flag computation, the same after every executed instruction (40_cycle.md R106). -/

namespace Sys2Proof.Machine

/-- `flags(a) := (a == 0, a >= 128)` (00_scope.md R9, 40_cycle.md R106). -/
def flagsOf (a : Byte) : Bool × Bool := (decide (a.toNat = 0), decide (128 ≤ a.toNat))

/-- `(Z, N) <- flags(AC)`, on the AC the instruction left (40_cycle.md R106). -/
def State.updateFlags (s : State) : State := s.setFlags (flagsOf s.ac)

/-- The end of every instruction that executes: the flags are recomputed and the step has its next state
(40_cycle.md R106, R110). -/
def retire (s : State) : Answer := .next s.updateFlags

end Sys2Proof.Machine
end

