-- ==== Sys2Proof/Machine/Operands.lean ====
section
/-! DEFINITION. The address translator, the opcode and operand fetch, and the one operand form as each group of instructions
uses it: data address, jump target, or ignored (30_encoding.md R73). -/

namespace Sys2Proof.Machine

/-- The address translator `translate(v)`, `4 + 2 * zext_8(v)`: pure, and with no failure mode (20_memory.md R53). -/
def translateAddr (v : Byte) : Nat := Config.headerBytes + Config.cellBytes * v.toNat

/-- The opcode fetch, the dispatch and the operand fetch of a step on a running state, each access behind its bounds test
(40_cycle.md R102, R103, R105). The tested operand offset is `pc1 = p0 + 2`. -/
def fetch (s : State) : Fetched :=
  match s.mem.load s.pc with
  | none => .outOfBounds .fetch s.pc
  | some op =>
    match decodeOpcode op with
    | none => .unknown op
    | some o =>
      match o.format with
      | .z i => .instr i
      | .a withOperand =>
        match s.mem.load (s.pc + Config.cellBytes) with
        | none => .outOfBounds .operand (s.pc + Config.cellBytes)
        | some v => .instr (withOperand v)

/-- The data address of an instruction that accesses data; NOT and the jumps access none (40_cycle.md R105, R107). -/
def dataAddress : Instr → Option Nat
  | .nop => none
  | .sta v => some (translateAddr v)
  | .lda v => some (translateAddr v)
  | .add v => some (translateAddr v)
  | .or v => some (translateAddr v)
  | .and v => some (translateAddr v)
  | .not _ => none
  | .jmp _ => none
  | .jn _ => none
  | .jz _ => none
  | .hlt => none

/-- The shape of LDA, ADD, OR and AND: test the data address, read the byte, write AC, go past two cells
(40_cycle.md R107, R110). -/
def intoAccumulator (f : Byte → Byte → Byte) (v : Byte) (s : State) : Answer :=
  match s.mem.load (translateAddr v) with
  | none => .next (s.raise .data (translateAddr v))
  | some b => retire ((s.setAc (f s.ac b)).advance 2)

/-- The shape of the jumps: `PC <- addr` if taken, else past two cells. The target is not tested here
(40_cycle.md R105, 43_control.md R160, R164). -/
def jumpIf (taken : Bool) (v : Byte) (s : State) : Answer :=
  retire (if taken then s.setPc (translateAddr v) else s.advance 2)

end Sys2Proof.Machine
end

