-- ==== Sys2Proof/Machine/Alu.lean ====
section
/-! DEFINITION. ADD, OR, AND, NOT (42_alu.md). -/

namespace Sys2Proof.Machine

/-- The saturating add, `min(a + b, 255)` with `a + b` computed in naturals (42_alu.md R140). -/
def satAdd (a b : Byte) : Byte := BitVec.ofNat 8 (min (a.toNat + b.toNat) 255)

/-- ADD: `AC <- saturating_add(AC, memory[address])` (42_alu.md R141). -/
def execAdd (v : Byte) (s : State) : Answer := intoAccumulator satAdd v s

/-- OR: `AC <- AC | memory[address]` (42_alu.md R142). -/
def execOr (v : Byte) (s : State) : Answer := intoAccumulator (fun a b => a ||| b) v s

/-- AND: `AC <- AC & memory[address]` (42_alu.md R143). -/
def execAnd (v : Byte) (s : State) : Answer := intoAccumulator (fun a b => a &&& b) v s

/-- NOT: `AC <- bitwise complement of AC`. Its operand byte has been fetched; it is neither tested against `L` nor used
(42_alu.md R144; 90_conflicts.md C1, C7). DESIGN CHOICE of the spec (D8), unsafe: log entry 6. -/
def execNot (_v : Byte) (s : State) : Answer := retire ((s.setAc (~~~s.ac)).advance 2)

end Sys2Proof.Machine
end

