-- ==== Sys2Proof/Machine/Control.lean ====
section
/-! DEFINITION. JMP, JN, JZ, HLT (43_control.md). -/

namespace Sys2Proof.Machine

/-- JMP: `program counter <- address` (43_control.md R160). -/
def execJmp (v : Byte) (s : State) : Answer := jumpIf true v s

/-- JN: the jump is taken only if N holds at the start of the step (43_control.md R161). -/
def execJn (v : Byte) (s : State) : Answer := jumpIf s.n v s

/-- JZ: the jump is taken only if Z holds at the start of the step (43_control.md R162). -/
def execJz (v : Byte) (s : State) : Answer := jumpIf s.z v s

/-- HLT: `HALT <- true`, PC past the HLT (43_control.md R163). -/
def execHlt (s : State) : Answer := retire (s.setHalt.advance 1)

end Sys2Proof.Machine
end

