-- ==== Sys2Proof/Machine/Transfer.lean ====
section
/-! DEFINITION. NOP, STA, LDA (41_transfer.md). A meaning runs on the state at the start of the step, whose PC is `p0`, once the
fetch has found the instruction (DEDUCED, safe: log entry 14). -/

namespace Sys2Proof.Machine

/-- NOP: no effect but the fetch advance (41_transfer.md R130). -/
def execNop (s : State) : Answer := retire (s.advance 1)

/-- STA: `memory[address] <- AC`, the significant byte only (41_transfer.md R131). -/
def execSta (v : Byte) (s : State) : Answer :=
  match s.mem.store (translateAddr v) s.ac with
  | none => .next (s.raise .data (translateAddr v))
  | some m => retire ((s.setMem m).advance 2)

/-- LDA: `AC <- memory[address]` (41_transfer.md R132). -/
def execLda (v : Byte) (s : State) : Answer := intoAccumulator (fun _ b => b) v s

end Sys2Proof.Machine
end

