-- ==== Sys2Proof/Machine/Dispatch.lean ====
section
/-! DEFINITION. The dispatch of an instruction to its meaning (40_cycle.md R107). -/

namespace Sys2Proof.Machine

/-- The meaning of an instruction on the state at the start of the step. -/
def exec (i : Instr) (s : State) : Host.Outcome State Fault Refusal :=
  match i with
  | .nop => Sys2Proof.Machine.execNop s
  | .sta v => Sys2Proof.Machine.execSta v s
  | .lda v => Sys2Proof.Machine.execLda v s
  | .add v => Sys2Proof.Machine.execAdd v s
  | .or v => Sys2Proof.Machine.execOr v s
  | .and v => Sys2Proof.Machine.execAnd v s
  | .not v => Sys2Proof.Machine.execNot v s
  | .jmp v => Sys2Proof.Machine.execJmp v s
  | .jn v => Sys2Proof.Machine.execJn v s
  | .jz v => Sys2Proof.Machine.execJz v s
  | .hlt => Sys2Proof.Machine.execHlt s

end Sys2Proof.Machine
end

