-- ==== Sys2Proof/Machine/Cycle.lean ====
section
/-! DEFINITION. The whole step, with its event (40_cycle.md R100 to R110). -/

namespace Sys2Proof.Machine

/-- The event of a step that runs an instruction: OutOfBounds if its data address does not exist, else Executed
(40_cycle.md R107, R109, R110). -/
def execEvent (i : Instr) (s : State) : StepEvent :=
  match dataAddress i with
  | none => .executed i
  | some a => if s.mem.inb a then .executed i else .outOfBounds .data a

/-- The whole step: the next state and the event (40_cycle.md R110). A skip is an event and is counted nowhere (the spec's
decision D10, log entry 10). -/
def cycle (s : State) : Answer × StepEvent :=
  if s.terminal then (.next s, .noOp)
  else
    match fetch s with
    | .outOfBounds phase offset => (.next (s.raise phase offset), .outOfBounds phase offset)
    | .unknown op => (.next (s.advance 1), .skipped op s.pc)
    | .instr i => (exec i s, execEvent i s)

/-- The spec's numbering of the events (40_cycle.md R109; the spec's decision D11). DESIGN CHOICE, safe: log entry 10. -/
def eventCode : StepEvent → Nat
  | .noOp => 0
  | .executed _ => 1
  | .skipped _ _ => 2
  | .outOfBounds _ _ => 3

/-- The spec's numbering of the phases (40_cycle.md R109; the spec's decision D11). -/
def phaseCode : Phase → Nat
  | .fetch => 0
  | .operand => 1
  | .data => 2

end Sys2Proof.Machine
end

