-- ==== Sys2Proof/Machine/Loader.lean ====
section
/-! DEFINITION. The loader, the core's only reset (70_reset_and_hazards.md R220 to R224), and the placing of one instruction for
the host of this row. -/

namespace Sys2Proof.Machine

/-- The reset state of a loaded image (70_reset_and_hazards.md R222). -/
def State.ofImage (img : List Byte) : State where
  mem := Memory.ofBytes img
  ac := 0#8
  pc := Config.entryPc
  z := true
  n := false
  halt := false
  oob := none

/-- The host's `load`: a reset state, or InvalidFormat and no state (70_reset_and_hazards.md R221, R222). -/
def load (img : List Byte) : Answer :=
  if imageWellFormed img then .next (State.ofImage img) else .fault .invalidFormat

/-- Write bytes from an offset on, with no bounds test. -/
def Memory.placeCells : Nat → List Byte → List Host.Cell → List Host.Cell
  | _, [], cs => cs
  | o, b :: rest, cs => Memory.placeCells (o + 1) rest (Memory.insert o b cs)

/-- A buffer that holds the given bytes from an offset on, as long as that takes and no shorter than before. -/
def Memory.place (m : Memory) (o : Nat) (bs : List Byte) : Memory where
  size := max m.size (o + bs.length)
  cells := Memory.placeCells o bs m.cells

/-- The state of a launch whose image holds the given bytes where the next fetch reads: the host's load (60_exceptions.md R209)
is what puts a program into memory, so a place beyond the buffer lengthens it, and the state is a running one
(DESIGN CHOICE, unsafe as a machine action, which it is not: log entry 2). -/
def State.placeAtPc (s : State) (bs : List Byte) : State :=
  { s with mem := s.mem.place s.pc bs, halt := false, oob := none }

end Sys2Proof.Machine
end

