-- ==== Sys2Proof/Machine/Step.lean ====
section
/-! DEFINITION. The step function and the place of the next instruction. -/

namespace Sys2Proof.Machine

/-- One step (40_cycle.md R100, R110). -/
def step (s : State) : Host.Outcome State Fault Refusal := (cycle s).1

/-- The event the same step returns (40_cycle.md R109). -/
def stepEvent (s : State) : StepEvent := (cycle s).2

/-- The state whose next step fetches and runs the instruction of the given bits, numbered as the opcode table numbers
them. DESIGN CHOICE: log entry 2. -/
def State.withFetchWord (s : State) (nbits w : Nat) : State := s.placeAtPc (tableBytes nbits w)

end Sys2Proof.Machine
end

