-- ==== Sys2Proof/Machine/Assembler.lean ====
section
/-! DEFINITION. The spec's own assembler syntax (30_encoding.md R79, the spec's decision D18): source lines to an image. It is no
part of the core. A label is defined once, and one that is used as an address names a cell 0..255 (DESIGN CHOICE: log entry 16). -/

namespace Sys2Proof.Machine

/-- Why a source is not assembled (log entry 16). -/
inductive AsmError where
  | illFormedItem (i : AsmItem)
  | undefinedLabel (name : String)
  | labelBeyondCell255 (name : String)
  | labelDefinedTwice
  deriving DecidableEq, Repr

/-- What the assembler answers. -/
inductive Assembled where
  | image (bytes : List Byte)
  | rejected (why : AsmError)
  deriving DecidableEq, Repr

/-- The cells an item takes (30_encoding.md R79). -/
def asmCells : AsmItem → Nat
  | .nop => 1
  | .hlt => 1
  | .not => 2
  | .address _ _ => 2
  | .byte _ => 1

/-- The label table: each label with the index of the cell its line starts at, the first line starting at cell `k`. -/
def asmLabels : Nat → List AsmLine → List (String × Nat)
  | _, [] => []
  | k, l :: rest =>
    match l.label with
    | none => asmLabels (k + asmCells l.item) rest
    | some name => (name, k) :: asmLabels (k + asmCells l.item) rest

/-- The operand byte of an address: its number, or the cell index of its label (30_encoding.md R79). DESIGN CHOICE, log entry 16:
only a label used as an address must name a cell 0..255; an unused label beyond cell 255 is accepted. -/
def asmAddress (labels : List (String × Nat)) : AsmAddr → Except AsmError Byte
  | .number v => .ok (BitVec.ofNat 8 v)
  | .label name =>
    match labels.lookup name with
    | none => .error (.undefinedLabel name)
    | some k => if k ≤ 255 then .ok (BitVec.ofNat 8 k) else .error (.labelBeyondCell255 name)

/-- The bytes of an item: padding 0, NOT's operand cell 0 (30_encoding.md R79). -/
def asmItem (labels : List (String × Nat)) (i : AsmItem) : Except AsmError (List Byte) :=
  if i.wellFormed then
    match i with
    | .nop => .ok (encode .nop)
    | .hlt => .ok (encode .hlt)
    | .not => .ok (encode (.not 0#8))
    | .byte n => .ok [BitVec.ofNat 8 n, 0#8]
    | .address m a =>
      match asmAddress labels a with
      | .error e => .error e
      | .ok v =>
        match m.format with
        | .z _ => .error (.illFormedItem i)
        | .a withOperand => .ok (encode (withOperand v))
  else .error (.illFormedItem i)

/-- The bytes of the lines, in order. -/
def asmBody (labels : List (String × Nat)) : List AsmLine → Except AsmError (List Byte)
  | [] => .ok []
  | l :: rest =>
    match asmItem labels l.item with
    | .error e => .error e
    | .ok bytes =>
      match asmBody labels rest with
      | .error e => .error e
      | .ok more => .ok (bytes ++ more)

/-- The image of a source: the magic header, then the cells (20_memory.md R51, 30_encoding.md R79). -/
def assemble (source : List AsmLine) : Assembled :=
  let labels := asmLabels 0 source
  if (labels.map Prod.fst).Nodup then
    match asmBody labels source with
    | .error e => .rejected e
    | .ok body => .image (Config.magic ++ body)
  else .rejected .labelDefinedTwice

/-- Spaces taken off both ends. -/
def asmTrim (cs : List Char) : List Char :=
  ((cs.dropWhile (· == ' ')).reverse.dropWhile (· == ' ')).reverse

/-- `decimal`: one digit or more (30_encoding.md R79). DESIGN CHOICE, log entry 16: leading zeros are accepted (`LDA 007`). -/
def asmDecimal (cs : List Char) : Option Nat :=
  if !cs.isEmpty && cs.all (fun c => decide (48 ≤ c.toNat) && decide (c.toNat ≤ 57)) then
    some (cs.foldl (fun x c => 10 * x + (c.toNat - 48)) 0)
  else none

/-- A label: no space, no colon, no digit first; a mnemonic's own spelling is accepted. DESIGN CHOICE, log entry 16: the grammar does
not spell labels. -/
def asmLabelName (cs : List Char) : Option String :=
  match cs with
  | [] => none
  | c :: rest =>
    if (asmDecimal [c]).isNone && (c :: rest).all (fun d => d != ' ' && d != ':') then some (String.ofList (c :: rest)) else none

/-- `addr := decimal 0..255 | label` (30_encoding.md R79). -/
def parseAddress (cs : List Char) : Option AsmAddr :=
  match asmDecimal cs with
  | some v => some (.number v)
  | none => (asmLabelName cs).map .label

/-- `item` of the grammar (30_encoding.md R79); the range of a number is `AsmItem.wellFormed`'s to check.
DESIGN CHOICE, log entry 16: the one space the grammar writes after a mnemonic or `.byte` may be several. -/
def parseItem (cs : List Char) : Option AsmItem :=
  let head := cs.takeWhile (· != ' ')
  let arg := asmTrim (cs.dropWhile (· != ' '))
  if head == ".byte".toList then (asmDecimal arg).map .byte
  else
    match Opcode.all.find? (fun o => o.mnemonic.toList == head) with
    | none => none
    | some .nop => if arg.isEmpty then some .nop else none
    | some .hlt => if arg.isEmpty then some .hlt else none
    | some .not => if arg.isEmpty then some .not else none
    | some m => (parseAddress arg).map (.address m)

/-- `line := [label ":"] item` (30_encoding.md R79). Spaces around the label and the item are let through, as the spec's own
listings align them (DESIGN CHOICE, log entry 16). -/
def parseLine (text : String) : Option AsmLine :=
  let cs := text.toList
  let before := cs.takeWhile (· != ':')
  match cs.dropWhile (· != ':') with
  | [] => (parseItem (asmTrim cs)).map fun i => { label := none, item := i }
  | _ :: after =>
    match asmLabelName (asmTrim before), parseItem (asmTrim after) with
    | some name, some i => some { label := some name, item := i }
    | _, _ => none

/-- A source text, one line of the grammar a line (30_encoding.md R79). -/
def parseSource : List String → Option (List AsmLine)
  | [] => some []
  | text :: rest =>
    match parseLine text, parseSource rest with
    | some l, some ls => some (l :: ls)
    | _, _ => none

end Sys2Proof.Machine
end

