-- ==== Sys2Proof/Machine/Disassembler.lean ====
section
/-! DEFINITION. The disassembler, a pure read-only function of the memory buffer (45_disassembler.md). -/

namespace Sys2Proof.Machine

/-- The two modes of the scan, local to one call (45_disassembler.md R182, 10_state.md R35). -/
inductive ScanMode where
  | expectInstruction | expectOperand
  deriving DecidableEq, Repr

/-- One token: a mnemonic or the byte's value (45_disassembler.md R181). -/
inductive Token where
  | mnemonic (o : Opcode)
  | value (b : Byte)
  deriving DecidableEq, Repr

/-- The token of a cell whose significant byte is `b`, in a mode (45_disassembler.md R182). -/
def scanToken (mode : ScanMode) (b : Byte) : Token :=
  match mode with
  | .expectOperand => .value b
  | .expectInstruction =>
    match decodeOpcode b with
    | none => .value b
    | some o => .mnemonic o

/-- The mode after a cell whose significant byte is `b` (45_disassembler.md R182). -/
def scanNext (mode : ScanMode) (b : Byte) : ScanMode :=
  match mode with
  | .expectOperand => .expectInstruction
  | .expectInstruction =>
    match decodeOpcode b with
    | none => .expectInstruction
    | some o => if o.hasOperand then .expectOperand else .expectInstruction

/-- The scan of `k` cells from an offset on, 2 bytes a cell, significant bytes only: each cell's offset, the mode it is read
in, and its token (45_disassembler.md R182). -/
def scan (m : Memory) : Nat → ScanMode → Nat → List (Nat × ScanMode × Token)
  | 0, _, _ => []
  | k + 1, mode, o =>
    let b := Memory.lookup o m.cells
    (o, mode, scanToken mode b) :: scan m k (scanNext mode b) (o + Config.cellBytes)

/-- The scan of a whole buffer: every valid cell, from offset 4, in expect-instruction mode (45_disassembler.md R182). -/
def scanBuffer (m : Memory) : List (Nat × ScanMode × Token) :=
  scan m m.cellCount .expectInstruction Config.headerBytes

/-- One ASCII decimal digit. -/
def digit (d : Nat) : Char := Char.ofNat (48 + d)

/-- A byte in decimal, with no sign, no leading zeros and no padding (45_disassembler.md R181; the spec's decision D23). -/
def decimal (b : Byte) : String :=
  let x := b.toNat
  String.ofList (if x < 10 then [digit x] else if x < 100 then [digit (x / 10), digit (x % 10)]
    else [digit (x / 100), digit (x / 10 % 10), digit (x % 10)])

/-- The spelling of a token (45_disassembler.md R181). -/
def tokenText : Token → String
  | .mnemonic o => o.mnemonic
  | .value b => decimal b

/-- `disassemble : mem -> list of strings` (45_disassembler.md R180, R182; 90_conflicts.md C2). DESIGN CHOICE of the spec (D9),
unsafe for tokens: log entry 7. -/
def disassemble (m : Memory) : List String := (scanBuffer m).map fun c => tokenText c.2.2

end Sys2Proof.Machine
end

