-- ==== Sys2Proof/Machine/Observe.lean ====
section
/-! DEFINITION. What the host can read between steps (10_state.md R25, R31, R36). -/

namespace Sys2Proof.Machine

/-- The observation `status` (10_state.md R31). -/
inductive Status where
  | running
  | halted
  | outOfBounds (phase : Phase) (offset : Nat)
  deriving DecidableEq, Repr

/-- Everything the host can read (10_state.md R36). -/
structure Observation where
  ac : Byte
  z : Bool
  n : Bool
  halted : Bool
  vpc : Nat
  bytes : List Byte
  tokens : List String
  status : Status
  deriving DecidableEq, Repr

/-- The virtual program-counter address, `(PC - 4) / 2`, not truncated (10_state.md R25; the spec's decision D20). DESIGN CHOICE, unsafe
above 255: log entry 9. -/
def State.vpc (s : State) : Nat := (s.pc - Config.headerBytes) / Config.cellBytes

/-- `status`: Halted if HALT, OutOfBounds if OOB, else Running (10_state.md R31). The two never hold together in a reachable
state, and the order of the tests matters in no such state. -/
def State.status (s : State) : Status :=
  if s.halt then .halted
  else
    match s.oob with
    | none => .running
    | some e => .outOfBounds e.phase e.offset

/-- The host's read (10_state.md R36, 60_exceptions.md R209). -/
def State.observe (s : State) : Observation where
  ac := s.ac
  z := s.z
  n := s.n
  halted := s.halt
  vpc := s.vpc
  bytes := s.mem.toBytes
  tokens := disassemble s.mem
  status := s.status

end Sys2Proof.Machine
end

