-- ==== Sys2Proof/Machine/Run.lean ====
section
/-! DEFINITION. Runs: some steps, and run to halt under fuel (40_cycle.md R111). -/

namespace Sys2Proof.Machine

/-- The state a step leaves. A step always answers a next state (`step_next`), so the other two cases do not arise. -/
def stepState (s : State) : State :=
  match step s with
  | .next t => t
  | .fault _ => s
  | .refused _ => s

/-- The state after `k` steps. -/
def runFor : Nat → State → State
  | 0, s => s
  | k + 1, s => runFor k (stepState s)

/-- The events of `k` steps, in order. -/
def eventsFor : Nat → State → List StepEvent
  | 0, _ => []
  | k + 1, s => stepEvent s :: eventsFor k (stepState s)

/-- `run_to_halt` under fuel: step until terminal. A run that has not ended within the fuel has no end state
(40_cycle.md R111; the spec's decision D15). DESIGN CHOICE, safe: log entry 15. -/
def runToHalt : Nat → State → Option State
  | 0, s => if s.terminal then some s else none
  | k + 1, s => if s.terminal then some s else runToHalt k (stepState s)

end Sys2Proof.Machine
end

