-- ==== Sys2Proof/Safety.lean ====
section
/-! DEFINITION. What counts as a legal state, as the end of a run and as a strict run, in the terms the statements use. -/

namespace Sys2Proof.Machine

/-- A running state: not terminal (10_state.md R31). -/
abbrev State.Running (s : State) : Prop := s.terminal = false

/-- PC is `4 + 2k`, and is bounded by `max(L + 1, 514)` (10_state.md R24). -/
structure State.PcInv (s : State) : Prop where
  form : ∃ k, s.pc = 4 + 2 * k
  bound : s.pc ≤ max (s.mem.size + 1) 514

/-- The flags are those of AC (10_state.md R28). -/
structure State.FlagsInv (s : State) : Prop where
  zero : s.z = true ↔ s.ac.toNat = 0
  negative : s.n = true ↔ 128 ≤ s.ac.toNat

/-- The memory is in canonical form, holds a header and begins with the magic header (20_memory.md R61, 00_scope.md R6). -/
structure State.MemInv (s : State) : Prop where
  canonical : s.mem.wf = true
  header : ∀ o, o < 4 → s.mem.load o = Config.magic[o]?

/-- The two terminal conditions exclude each other (10_state.md R31), and a recorded out-of-bounds access names an offset that
fails the bounds test: PC, PC + 2, or a data address (60_exceptions.md R202). -/
structure State.StatusInv (s : State) : Prop where
  exclusive : s.halt = true → s.oob = none
  failed : ∀ e, s.oob = some e → s.mem.size ≤ e.offset
  atFetch : ∀ e, s.oob = some e → e.phase = .fetch → e.offset = s.pc
  atOperand : ∀ e, s.oob = some e → e.phase = .operand → e.offset = s.pc + 2
  atData : ∀ e, s.oob = some e → e.phase = .data → ∃ v : Byte, e.offset = 4 + 2 * v.toNat

/-- The invariant of the machine: it holds after every load and every step keeps it. -/
structure State.Inv (s : State) : Prop where
  pcInv : s.PcInv
  flagsInv : s.FlagsInv
  memInv : s.MemInv
  statusInv : s.StatusInv

/-- A run ends exactly when the state becomes terminal (60_exceptions.md R210): `t` is the first terminal state from `s`. -/
def EndsIn (s t : State) : Prop :=
  ∃ k, runFor k s = t ∧ t.terminal = true ∧ ∀ j, j < k → (runFor j s).Running

/-- No byte was skipped in the first `k` steps: the premise for a claim meant to hold of a stricter decoder
(93_implementation_defined.md item 1). -/
def StrictFor (k : Nat) (s : State) : Prop := ∀ op o, StepEvent.skipped op o ∉ eventsFor k s

/-- The event is that of an STA to an offset. -/
def storesTo (o : Nat) : StepEvent → Bool
  | .executed (.sta v) => translateAddr v == o
  | _ => false

/-- The byte the latest STA to an offset stored within the first `k` steps, if there was one (20_memory.md R64). -/
def lastStore (o : Nat) : Nat → State → Option Byte
  | 0, _ => none
  | k + 1, s =>
    match lastStore o k (stepState s) with
    | some b => some b
    | none => if storesTo o (stepEvent s) then some s.ac else none

/-- The offsets of the opcode bytes that `k` steps fetch, in order. -/
def opcodeOffsets : Nat → State → List Nat
  | 0, _ => []
  | k + 1, s => s.pc :: opcodeOffsets k (stepState s)

/-- The offsets of the operand bytes that `k` steps fetch, in order: the next cell, where the opcode byte is that of a two-cell
instruction (40_cycle.md R105). -/
def operandOffsets : Nat → State → List Nat
  | 0, _ => []
  | k + 1, s =>
    match s.mem.load s.pc with
    | none => operandOffsets k (stepState s)
    | some b =>
      if lengthCells b = 2 then (s.pc + 2) :: operandOffsets k (stepState s) else operandOffsets k (stepState s)

/-- The step at a state fetches an opcode byte, leaves PC at the end of that instruction's cells (no taken jump) and leaves the
memory as it was: the premise of 45_disassembler.md R184 for one step. -/
def FallsThrough (s : State) : Prop :=
  ∃ b, s.mem.load s.pc = some b ∧ (stepState s).pc = s.pc + 2 * lengthCells b ∧ (stepState s).mem = s.mem

/-- The offsets of the cells the disassembler's scan reads in a mode (45_disassembler.md R182). -/
def scannedIn (mode : ScanMode) (m : Memory) : List Nat :=
  ((scanBuffer m).filter fun c => c.2.1 == mode).map fun c => c.1

/-- Two states agree on everything but padding bytes and header bytes (20_memory.md R51). -/
structure AgreeOnCells (s t : State) : Prop where
  size : s.mem.size = t.mem.size
  cells : ∀ k, s.mem.load (4 + 2 * k) = t.mem.load (4 + 2 * k)
  ac : s.ac = t.ac
  pc : s.pc = t.pc
  z : s.z = t.z
  n : s.n = t.n
  halt : s.halt = t.halt
  oob : s.oob = t.oob

/-- The offset at which a line of a source begins (30_encoding.md R79). -/
def lineOffset (source : List AsmLine) (k : Nat) : Nat :=
  Config.headerBytes + Config.cellBytes * ((source.take k).map fun l => asmCells l.item).sum

end Sys2Proof.Machine
end

