-- ==== Sys2Proof/Certificates/Slice0/Obligations.lean ====
section
/-! DEFINITION. The statements for the provers. Each formalises a sentence of the spec; where it rests on a choice the spec or
the model marks as its own, its docstring says so. -/

open Sys2Proof Sys2Proof.Machine

namespace Sys2Proof.Forms

/-- `t` is `s` with memory as it was: every byte reads as before, and the whole buffer is the same. -/
def MemoryKept (s t : State) : Prop := t.mem = s.mem ∧ ∀ o, t.mem.load o = s.mem.load o

/-- HALT and OOB are as they were. -/
def StatusKept (s t : State) : Prop := t.halt = s.halt ∧ t.oob = s.oob

/-- The flags of `t` are those of its AC, and where `s` had the flags of the same AC they have kept their values. -/
def FlagsKept (s t : State) : Prop := t.FlagsInv ∧ (s.FlagsInv → t.z = s.z ∧ t.n = s.n)

/-- Before the opcode is known: a running state whose PC is beyond the buffer raises OutOfBounds(Fetch, PC). -/
def FetchTested : Prop := ∀ s : State, s.Running → s.mem.load s.pc = none → stepEvent s = .outOfBounds .fetch s.pc

/-- A one-cell instruction: with its opcode byte at PC the step runs it, fetches nothing more, and reports it executed. -/
def OneCell (op : Byte) (i : Instr) : Prop :=
  lengthCells op = 1 ∧ ∀ s : State, s.Running → s.mem.load s.pc = some op → step s = exec i s ∧ stepEvent s = .executed i

/-- A two-cell instruction: with its opcode byte at PC, the operand byte at PC + 2 is tested, then fetched, and the step runs
the instruction with it. -/
def TwoCells (op : Byte) (mk : Byte → Instr) : Prop :=
  lengthCells op = 2 ∧ ∀ s : State, s.Running → s.mem.load s.pc = some op →
    (s.mem.load (s.pc + 2) = none → stepEvent s = .outOfBounds .operand (s.pc + 2)) ∧
    ∀ v, s.mem.load (s.pc + 2) = some v → step s = exec (mk v) s

/-- The data address `4 + 2v` is tested: beyond the buffer the step raises OutOfBounds(Data, 4 + 2v), within it the
instruction is reported executed. -/
def DataTested (op : Byte) (mk : Byte → Instr) : Prop :=
  ∀ (s : State) (v : Byte), s.Running → s.mem.load s.pc = some op → s.mem.load (s.pc + 2) = some v →
    (s.mem.load (4 + 2 * v.toNat) = none → stepEvent s = .outOfBounds .data (4 + 2 * v.toNat)) ∧
    ∀ b, s.mem.load (4 + 2 * v.toNat) = some b → stepEvent s = .executed (mk v)

/-- No data address is tested: the instruction is reported executed whatever `v` is. -/
def NoDataTest (op : Byte) (mk : Byte → Instr) : Prop :=
  ∀ (s : State) (v : Byte), s.Running → s.mem.load s.pc = some op → s.mem.load (s.pc + 2) = some v →
    stepEvent s = .executed (mk v)

end Sys2Proof.Forms

open Sys2Proof.Forms

/-! Encoding. -/

/-- 30_encoding.md R74: the opcode byte is compared whole with 11 values; every other byte decodes to none. -/
def Obligations.OpcodeByteIsComparedWhole : Prop :=
  decodeOpcode 0x00#8 = some .nop ∧ decodeOpcode 0x10#8 = some .sta ∧ decodeOpcode 0x20#8 = some .lda ∧
  decodeOpcode 0x30#8 = some .add ∧ decodeOpcode 0x40#8 = some .or ∧ decodeOpcode 0x50#8 = some .and ∧
  decodeOpcode 0x60#8 = some .not ∧ decodeOpcode 0x80#8 = some .jmp ∧ decodeOpcode 0x90#8 = some .jn ∧
  decodeOpcode 0xA0#8 = some .jz ∧ decodeOpcode 0xF0#8 = some .hlt ∧
  ∀ b : Byte, b ∉ [0x00#8, 0x10#8, 0x20#8, 0x30#8, 0x40#8, 0x50#8, 0x60#8, 0x80#8, 0x90#8, 0xA0#8, 0xF0#8] →
    decodeOpcode b = none

/-- Words written out from the encodings of 30_encoding.md R71, R72, R75, one or more for each family, decode to the
instruction they stand for, and a truncated or unknown one is rejected by name. -/
def Obligations.SpecWordsDecode : Prop :=
  decode [0x00#8, 0x00#8] = .instr .nop [] ∧
  decode [0x10#8, 0x00#8, 0x05#8, 0x00#8] = .instr (.sta 5#8) [] ∧
  decode [0x20#8, 0x00#8, 0x03#8, 0x00#8] = .instr (.lda 3#8) [] ∧
  decode [0x30#8, 0xAA#8, 0x03#8, 0x55#8, 0x21#8] = .instr (.add 3#8) [0x21#8] ∧
  decode [0x60#8, 0x00#8, 0x07#8, 0x00#8] = .instr (.not 7#8) [] ∧
  decode [0x80#8, 0x00#8, 0xC8#8, 0x00#8] = .instr (.jmp 200#8) [] ∧
  decode [0x90#8, 0x00#8, 0x08#8] = .instr (.jn 8#8) [] ∧
  decode [0xF0#8] = .instr .hlt [] ∧
  decode [0x11#8, 0x00#8] = .rejected (.unknownOpcode 0x11#8) ∧
  decode [0x60#8, 0x00#8] = .rejected (.noOperand .not) ∧
  decode [] = .rejected .noOpcode

/-- The decoder reads an instruction from a byte stream exactly when the stream begins with an encoding of it, under whatever
padding, or is one whose last padding byte is missing (20_memory.md R52, 30_encoding.md R71, R72). -/
def Obligations.DecodeIsTheInverseOfEncode : Prop :=
  ∀ (bs rest : List Byte) (i : Instr), decode bs = .instr i rest ↔
    (∃ p q, bs = encodeWith p q i ++ rest) ∨ (rest = [] ∧ ∃ p q, bs = (encodeWith p q i).dropLast)

/-- Instructions laid down one after another from cell 0 are fetched back, each at its own place. -/
def Obligations.EncodedProgramIsFetchedBack : Prop :=
  ∀ (prog : List Instr) (k : Nat) (i : Instr), prog[k]? = some i →
    fetch { State.ofImage (Config.magic ++ prog.flatMap encode) with
      pc := 4 + ((prog.take k).flatMap encode).length } = .instr i

/-- The opcode table's bit numbering: every instruction is read back from its own number, with every operand. -/
def Obligations.TableWordDecodesBack : Prop :=
  ∀ i : Instr, decodeTableWord (tableBits i) (tableWord i) = some i

/-- An instruction placed at PC is the one the next step runs (the model's own placing, log entry 2). -/
def Obligations.PlacedInstructionRunsNext : Prop :=
  ∀ (s : State) (i : Instr), s.mem.wf = true →
    step (s.withFetchWord (tableBits i) (tableWord i)) = exec i (s.withFetchWord (tableBits i) (tableWord i)) ∧
    (s.withFetchWord (tableBits i) (tableWord i)).mem.wf = true

/-! Memory. -/

/-- 20_memory.md R53: `translate(v) = 4 + 2v`, never beyond 514, injective, onto the even offsets 4 to 514. -/
def Obligations.TranslateIsOntoTheCells : Prop :=
  (∀ v : Byte, translateAddr v = 4 + 2 * v.toNat ∧ 4 ≤ translateAddr v ∧ translateAddr v ≤ 514 ∧ translateAddr v % 2 = 0) ∧
  (∀ v w : Byte, translateAddr v = translateAddr w → v = w) ∧
  (∀ o, 4 ≤ o → o ≤ 514 → o % 2 = 0 → ∃ v, translateAddr v = o) ∧
  translateAddr 0#8 = 4 ∧ translateAddr 3#8 = 10 ∧ translateAddr 255#8 = 514

/-- 20_memory.md R52: cell `k` exists iff `4 + 2k < L`; the last cell of an odd buffer has no padding byte and is valid; the
number of valid cells. -/
def Obligations.ValidCellsOfABuffer : Prop :=
  (∀ (m : Memory) (k : Nat), m.load (4 + 2 * k) ≠ none ↔ 4 + 2 * k < m.size) ∧
  (∀ (m : Memory) (k : Nat), 4 ≤ m.size → (k < m.cellCount ↔ m.load (4 + 2 * k) ≠ none)) ∧
  (∀ m : Memory, 5 ≤ m.size → m.size % 2 = 1 →
    4 + 2 * ((m.size - 5) / 2) = m.size - 1 ∧ m.load (4 + 2 * ((m.size - 5) / 2)) ≠ none ∧
    m.load (4 + 2 * ((m.size - 5) / 2) + 1) = none ∧ m.cellCount = (m.size - 5) / 2 + 1) ∧
  (∀ m : Memory, 4 ≤ m.size → m.cellCount = (m.size - 3) / 2) ∧
  (∀ m : Memory, m.size = 4 → m.cellCount = 0)

/-- A store of one byte: read back at its offset, every other byte as before, the length and the canonical form kept. -/
def Obligations.StoreThenLoad : Prop :=
  ∀ (m : Memory) (o : Nat) (b : Byte), m.wf = true → o < m.size →
    ∃ m', m.store o b = some m' ∧ m'.load o = some b ∧ (∀ a, a ≠ o → m'.load a = m.load a) ∧
      m'.size = m.size ∧ m'.wf = true

/-- The canonical form: buffers of one length that read alike are equal data (log entry 3). -/
def Obligations.CanonicalMemoryIsDetermined : Prop :=
  ∀ m m' : Memory, m.wf = true → m'.wf = true → m.size = m'.size → (∀ o, m.load o = m'.load o) → m = m'

/-- A loaded buffer is held exactly: its bytes read back, and the host's read of the raw buffer gives it. -/
def Obligations.BufferIsHeldExactly : Prop :=
  (∀ img : List Byte, (Memory.ofBytes img).wf = true ∧ (Memory.ofBytes img).toBytes = img ∧
    ∀ o, (Memory.ofBytes img).load o = img[o]?) ∧
  (∀ m : Memory, m.wf = true → Memory.ofBytes m.toBytes = m)

/-! Reset. -/

/-- A load of the magic header with any bytes after it creates the reset state of 70_reset_and_hazards.md section 1; that OOB is
none is the spec's own element (92_eei_decisions.md D5). -/
def Obligations.LoadCreatesTheResetState : Prop :=
  ∀ rest : List Byte, ∃ t, load ([0x03#8, 0x4E#8, 0x44#8, 0x52#8] ++ rest) = .next t ∧
    t.mem.size = 4 + rest.length ∧ (∀ o, t.mem.load o = ([0x03#8, 0x4E#8, 0x44#8, 0x52#8] ++ rest)[o]?) ∧
    t.ac = 0#8 ∧ t.pc = 4 ∧ t.vpc = 0 ∧ t.z = true ∧ t.n = false ∧ t.halt = false ∧ t.oob = none

/-- Any other buffer fails to load, one shorter than 4 bytes included (the spec's decision D19). -/
def Obligations.LoadRefusesEveryOtherPrefix : Prop :=
  ∀ img : List Byte, (¬ ∃ rest, img = [0x03#8, 0x4E#8, 0x44#8, 0x52#8] ++ rest) → load img = .fault .invalidFormat

/-- The invariant holds after reset and after every load, and the state runs. `State.reset` is a load of the header alone (the
model's choice, log entry 1). -/
def Obligations.InvariantHoldsAfterEveryLoad : Prop :=
  (load [0x03#8, 0x4E#8, 0x44#8, 0x52#8] = .next State.reset) ∧ State.reset.Inv ∧ State.reset.Running ∧
  ∀ (img : List Byte) (t : State), load img = .next t → t.Inv ∧ t.Running

/-- An image with no cell loads, and its first step raises OutOfBounds(Fetch, 4); what that step leaves of PC is the spec's
decision D6. -/
def Obligations.ImageWithNoCellEndsAtTheFirstFetch : Prop :=
  ∀ (img : List Byte) (t : State), load img = .next t → img.length = 4 →
    t.Running ∧ stepEvent t = .outOfBounds .fetch 4 ∧ step t = .next { t with oob := some ⟨.fetch, 4⟩ }

/-! The step. -/

/-- When the bytes at PC decode to an instruction, the step of a running state is that instruction's meaning, and its event is
that instruction's. -/
def Obligations.StepRunsTheDecodedInstruction : Prop :=
  ∀ (s : State) (i : Instr) (rest : List Byte), s.Running → decode (s.mem.window s.pc 4) = .instr i rest →
    step s = exec i s ∧ stepEvent s = execEvent i s

/-- The fetch agrees with the decoder on the bytes at PC, the rejections included. -/
def Obligations.FetchAgreesWithTheDecoder : Prop :=
  ∀ s : State,
    (∀ i, fetch s = .instr i ↔ ∃ rest, decode (s.mem.window s.pc 4) = .instr i rest) ∧
    (∀ op, fetch s = .unknown op ↔ decode (s.mem.window s.pc 4) = .rejected (.unknownOpcode op)) ∧
    (fetch s = .outOfBounds .fetch s.pc ↔ decode (s.mem.window s.pc 4) = .rejected .noOpcode) ∧
    (fetch s = .outOfBounds .operand (s.pc + 2) ↔ ∃ o, decode (s.mem.window s.pc 4) = .rejected (.noOperand o))

/-- Every instruction may execute in every state and every step answers a next state: nothing is privileged, nothing traps out
of the model (the spec's decisions D12, D13). -/
def Obligations.EveryStepAnswersANextState : Prop :=
  (∀ (i : Instr) (s : State), ∃ t, exec i s = .next t) ∧ ∀ s : State, ∃ t, step s = .next t

/-- 40_cycle.md R101: on a terminal state a step changes nothing and returns NoOp, and so does every later step. -/
def Obligations.TerminalStateStaysAsItIs : Prop :=
  ∀ s : State, s.halt = true ∨ s.oob ≠ none →
    step s = .next s ∧ stepEvent s = .noOp ∧ ∀ k, runFor k s = s ∧ eventsFor k s = List.replicate k .noOp

/-- A byte that is none of the 11 is skipped as one cell with no other effect; the event is the spec's decision D10. -/
def Obligations.UnknownOpcodeIsSkipped : Prop :=
  (∀ b : Byte, decodeOpcode b = none → lengthCells b = 1) ∧
  ((List.range 256).filter fun x => decodeOpcode (BitVec.ofNat 8 x) == none).length = 245 ∧
  ∀ (s : State) (op : Byte), s.Running → s.mem.load s.pc = some op → decodeOpcode op = none →
    step s = .next { s with pc := s.pc + 2 } ∧ stepEvent s = .skipped op s.pc

/-- A step that reports OutOfBounds commits the OOB status and nothing else, PC included: the spec's decisions D5 and D6
(log entry 5). -/
def Obligations.OutOfBoundsCommitsOnlyTheStatus : Prop :=
  ∀ (s : State) (ph : Phase) (o : Nat), stepEvent s = .outOfBounds ph o →
    step s = .next { s with oob := some ⟨ph, o⟩ }

/-- The reported access is the first one whose test fails, in the order opcode fetch, operand fetch, data access, and an access
is made only by the instructions that have it (40_cycle.md section 4, the spec's inference; which offsets are tested is its
decision D7). -/
def Obligations.OutOfBoundsIsTheFirstFailingAccess : Prop :=
  ∀ (s : State) (ph : Phase) (o : Nat), stepEvent s = .outOfBounds ph o ↔ s.Running ∧
    ((ph = .fetch ∧ o = s.pc ∧ s.mem.size ≤ o) ∨
     (ph = .operand ∧ o = s.pc + 2 ∧ s.mem.size ≤ o ∧ ∃ op, s.mem.load s.pc = some op ∧
        op ∈ [0x10#8, 0x20#8, 0x30#8, 0x40#8, 0x50#8, 0x60#8, 0x80#8, 0x90#8, 0xA0#8]) ∨
     (ph = .data ∧ s.mem.size ≤ o ∧ ∃ op v, s.mem.load s.pc = some op ∧
        op ∈ [0x10#8, 0x20#8, 0x30#8, 0x40#8, 0x50#8] ∧ s.mem.load (s.pc + 2) = some v ∧ o = 4 + 2 * v.toNat))

/-- 40_cycle.md R106: after every executed instruction Z and N are those of AC; a skip and an OutOfBounds step change neither
flag nor AC. -/
def Obligations.FlagsAreRecomputedFromAc : Prop :=
  ∀ s t : State, step s = .next t →
    (∀ i, stepEvent s = .executed i → (t.z = true ↔ t.ac.toNat = 0) ∧ (t.n = true ↔ 128 ≤ t.ac.toNat)) ∧
    (∀ op o, stepEvent s = .skipped op o → t.ac = s.ac ∧ t.z = s.z ∧ t.n = s.n) ∧
    (∀ ph o, stepEvent s = .outOfBounds ph o → t.ac = s.ac ∧ t.z = s.z ∧ t.n = s.n)

/-- PC after a step, by case (40_cycle.md section 4, the spec's inference; the OutOfBounds case is its decision D6). -/
def Obligations.PcAfterAStepByCase : Prop :=
  ∀ s t : State, step s = .next t →
    (∀ i, stepEvent s = .executed i →
      (i = .nop ∨ i = .hlt → t.pc = s.pc + 2) ∧
      (∀ v, i = .sta v ∨ i = .lda v ∨ i = .add v ∨ i = .or v ∨ i = .and v ∨ i = .not v → t.pc = s.pc + 4) ∧
      (∀ v, i = .jmp v → t.pc = 4 + 2 * v.toNat) ∧
      (∀ v, i = .jn v → t.pc = if s.n then 4 + 2 * v.toNat else s.pc + 4) ∧
      (∀ v, i = .jz v → t.pc = if s.z then 4 + 2 * v.toNat else s.pc + 4)) ∧
    (∀ op o, stepEvent s = .skipped op o → t.pc = s.pc + 2) ∧
    (∀ ph o, stepEvent s = .outOfBounds ph o → t.pc = s.pc) ∧
    (stepEvent s = .noOp → t.pc = s.pc)

/-- AC changes only in a step that executes LDA, ADD, OR, AND or NOT. -/
def Obligations.OnlyFiveInstructionsWriteAc : Prop :=
  ∀ s t : State, step s = .next t → t.ac ≠ s.ac →
    ∃ v, stepEvent s = .executed (.lda v) ∨ stepEvent s = .executed (.add v) ∨ stepEvent s = .executed (.or v) ∨
      stepEvent s = .executed (.and v) ∨ stepEvent s = .executed (.not v)

/-- 10_state.md R29: HALT is set by HLT alone, is never cleared, is false after every load, and once it is set the engine stops
stepping. -/
def Obligations.HaltIsSetByHltAlone : Prop :=
  (∀ s t : State, step s = .next t → (t.halt = true ↔ s.halt = true ∨ stepEvent s = .executed .hlt)) ∧
  (∀ (img : List Byte) (t : State), load img = .next t → t.halt = false) ∧
  (∀ (s : State) (k : Nat), s.halt = true → runFor k s = s)

/-- OOB is set by the step that detects an out-of-bounds access, to that access, and is never cleared: the spec's own element
(92_eei_decisions.md D5). -/
def Obligations.OobRecordsTheDetectedAccess : Prop :=
  ∀ s t : State, step s = .next t → ∀ ph o, (t.oob = some ⟨ph, o⟩ ↔
    s.oob = some ⟨ph, o⟩ ∨ stepEvent s = .outOfBounds ph o)

/-- 10_state.md R32: `mem` is the full input buffer; STA alone writes it, and only the significant byte of a cell 0..255; the
header and every padding byte keep their loaded values for the whole run. -/
def Obligations.OnlyStaWritesMemory : Prop :=
  (∀ (img : List Byte) (t : State), load img = .next t → t.mem.size = img.length ∧ ∀ o, t.mem.load o = img[o]?) ∧
  (∀ s t : State, step s = .next t → t.mem.size = s.mem.size ∧
    ((∀ v, stepEvent s ≠ .executed (.sta v)) → t.mem = s.mem) ∧
    (∀ v, stepEvent s = .executed (.sta v) → ∀ o, o ≠ 4 + 2 * v.toNat → t.mem.load o = s.mem.load o)) ∧
  (∀ (s : State) (k o : Nat), o < 4 ∨ o % 2 = 1 → (runFor k s).mem.load o = s.mem.load o)

/-- Cells from 256 on hold what was loaded for the whole run: no data access reaches them. -/
def Obligations.CellsBeyond255KeepTheirBytes : Prop :=
  ∀ (s : State) (k c : Nat), 256 ≤ c → (runFor k s).mem.load (4 + 2 * c) = s.mem.load (4 + 2 * c)

/-- After any number of steps every offset reads as the byte of the latest STA to it, and as the starting memory where there was
none (sequential consistency with one agent, the spec's decision D21). -/
def Obligations.EveryReadSeesTheLatestStore : Prop :=
  ∀ (k : Nat) (s : State) (o : Nat), s.mem.wf = true →
    (runFor k s).mem.load o = (match lastStore o k s with | some b => some b | none => s.mem.load o)

/-- An STA to the cell the next step fetches: that step fetches the stored byte (the spec's decision D16). -/
def Obligations.StoreIsSeenByTheNextFetch : Prop :=
  ∀ (s t : State) (v : Byte), s.mem.wf = true → step s = .next t → stepEvent s = .executed (.sta v) →
    t.pc = 4 + 2 * v.toNat →
    t.mem.load t.pc = some s.ac ∧ (decodeOpcode s.ac = none → stepEvent t = .skipped s.ac t.pc) ∧
    (s.ac = 0xF0#8 → stepEvent t = .executed .hlt)

/-- Padding bytes and header bytes never affect what executes: states that agree on everything else have the same events and
agree for ever. -/
def Obligations.PaddingNeverAffectsExecution : Prop :=
  ∀ (k : Nat) (s t : State), s.mem.wf = true → t.mem.wf = true → s.PcInv → AgreeOnCells s t →
    eventsFor k s = eventsFor k t ∧ AgreeOnCells (runFor k s) (runFor k t)

/-- Every step keeps the invariant: PC is `4 + 2k` and bounded, the flags are those of AC, memory keeps its canonical form and
its header, and the terminal conditions exclude each other and name a failed test. -/
def Obligations.EveryStepKeepsTheInvariant : Prop :=
  ∀ s t : State, s.Inv → step s = .next t → t.Inv

/-- `run_to_halt` under fuel gives exactly the first terminal state of the run; short of it there is no end state (the spec's
decision D15). -/
def Obligations.RunToHaltGivesTheFirstTerminalState : Prop :=
  (∀ (fuel : Nat) (s t : State), runToHalt fuel s = some t ↔
    ∃ k, k ≤ fuel ∧ runFor k s = t ∧ t.terminal = true ∧ ∀ j, j < k → (runFor j s).Running) ∧
  (∀ s t : State, EndsIn s t ↔ ∃ fuel, runToHalt fuel s = some t) ∧
  (∀ (fuel : Nat) (s : State), s.terminal = true → runToHalt fuel s = some s)

/-- A taken jump beyond the buffer raises nothing itself; the next step raises OutOfBounds(Fetch) at the target and the run is
over. The phase and the offset are the spec's decision D7, the PC kept its decision D6. -/
def Obligations.JumpBeyondTheBufferEndsAtTheNextFetch : Prop :=
  ∀ (s t : State) (i : Instr) (v : Byte), s.Running → fetch s = .instr i →
    (i = .jmp v ∨ (i = .jn v ∧ s.n = true) ∨ (i = .jz v ∧ s.z = true)) → s.mem.size ≤ 4 + 2 * v.toNat →
    step s = .next t →
    stepEvent s = .executed i ∧ t.pc = 4 + 2 * v.toNat ∧ stepEvent t = .outOfBounds .fetch (4 + 2 * v.toNat) ∧
    (stepState t).pc = 4 + 2 * v.toNat ∧ (stepState t).terminal = true

/-! The instructions. Each statement says that the instruction completes, with its result and what it leaves unchanged, for
every state in which its data address exists, and how its cells are fetched and tested. -/

/-- 41_transfer.md R130. -/
def Obligations.NopOnlyAdvances : Prop :=
  (∀ s : State, ∃ t, exec .nop s = .next t ∧ t.pc = s.pc + 2 ∧ t.ac = s.ac ∧ MemoryKept s t ∧ StatusKept s t ∧
    FlagsKept s t) ∧
  OneCell 0x00#8 .nop ∧ FetchTested

/-- 41_transfer.md, STA. "In each case nothing else changes" of an exception keeps PC too, which is the spec's decision D6. -/
def Obligations.StaStoresAc : Prop :=
  (∀ (s : State) (v : Byte), 4 + 2 * v.toNat < s.mem.size →
    ∃ t, exec (.sta v) s = .next t ∧ t.pc = s.pc + 4 ∧ t.ac = s.ac ∧ StatusKept s t ∧ FlagsKept s t ∧
      t.mem.size = s.mem.size ∧ dataAddress (.sta v) = some (4 + 2 * v.toNat) ∧
      (∀ a, dataAddress (.sta v) = some a →
        (s.mem.wf = true → t.mem.load a = some s.ac) ∧ ∀ o, o ≠ a → t.mem.load o = s.mem.load o)) ∧
  (∀ (s : State) (v : Byte), s.mem.size ≤ 4 + 2 * v.toNat →
    exec (.sta v) s = .next { s with oob := some ⟨.data, 4 + 2 * v.toNat⟩ }) ∧
  TwoCells 0x10#8 .sta ∧ DataTested 0x10#8 .sta ∧ FetchTested

/-- 41_transfer.md R132. -/
def Obligations.LdaLoadsAc : Prop :=
  (∀ (s : State) (v b : Byte), s.mem.load (4 + 2 * v.toNat) = some b →
    ∃ t, exec (.lda v) s = .next t ∧ t.ac = b ∧ t.pc = s.pc + 4 ∧ t.FlagsInv ∧ MemoryKept s t ∧ StatusKept s t) ∧
  TwoCells 0x20#8 .lda ∧ DataTested 0x20#8 .lda ∧ FetchTested

/-- 42_alu.md R141. -/
def Obligations.AddSaturates : Prop :=
  (∀ (s : State) (v b : Byte), s.mem.load (4 + 2 * v.toNat) = some b →
    ∃ t, exec (.add v) s = .next t ∧ t.ac.toNat = min (s.ac.toNat + b.toNat) 255 ∧ t.pc = s.pc + 4 ∧ t.FlagsInv ∧
      MemoryKept s t ∧ StatusKept s t) ∧
  TwoCells 0x30#8 .add ∧ DataTested 0x30#8 .add ∧ FetchTested

/-- 42_alu.md R142. -/
def Obligations.OrIsBitwise : Prop :=
  (∀ (s : State) (v b : Byte), s.mem.load (4 + 2 * v.toNat) = some b →
    ∃ t, exec (.or v) s = .next t ∧ (∀ k, t.ac.getLsbD k = (s.ac.getLsbD k || b.getLsbD k)) ∧ t.pc = s.pc + 4 ∧
      t.FlagsInv ∧ MemoryKept s t ∧ StatusKept s t) ∧
  TwoCells 0x40#8 .or ∧ DataTested 0x40#8 .or ∧ FetchTested

/-- 42_alu.md R143. -/
def Obligations.AndIsBitwise : Prop :=
  (∀ (s : State) (v b : Byte), s.mem.load (4 + 2 * v.toNat) = some b →
    ∃ t, exec (.and v) s = .next t ∧ (∀ k, t.ac.getLsbD k = (s.ac.getLsbD k && b.getLsbD k)) ∧ t.pc = s.pc + 4 ∧
      t.FlagsInv ∧ MemoryKept s t ∧ StatusKept s t) ∧
  TwoCells 0x50#8 .and ∧ DataTested 0x50#8 .and ∧ FetchTested

/-- 42_alu.md, NOT. That it takes two cells and ignores its operand is the spec's decision D8 (log entry 6). -/
def Obligations.NotComplements : Prop :=
  (∀ (s : State) (v : Byte), ∃ t, exec (.not v) s = .next t ∧ t.ac.toNat = 255 - s.ac.toNat ∧ t.pc = s.pc + 4 ∧
    t.FlagsInv ∧ MemoryKept s t ∧ StatusKept s t) ∧
  (∀ (s : State) (v w : Byte), exec (.not v) s = exec (.not w) s) ∧
  TwoCells 0x60#8 .not ∧ NoDataTest 0x60#8 .not ∧ FetchTested

/-- 43_control.md R160. A target beyond the buffer raises nothing at the jump; the next step raises it. A JMP to its own cell
loops for ever. -/
def Obligations.JmpJumps : Prop :=
  (∀ (s : State) (v : Byte), ∃ t, exec (.jmp v) s = .next t ∧ t.pc = 4 + 2 * v.toNat ∧ t.ac = s.ac ∧ MemoryKept s t ∧
    StatusKept s t ∧ FlagsKept s t ∧
    (s.Running → s.mem.size ≤ 4 + 2 * v.toNat → stepEvent t = .outOfBounds .fetch (4 + 2 * v.toNat))) ∧
  (∀ (s : State) (v : Byte), s.Running → s.mem.load s.pc = some 0x80#8 → s.mem.load (s.pc + 2) = some v →
    s.pc = 4 + 2 * v.toNat → ∀ fuel, runToHalt fuel s = none) ∧
  TwoCells 0x80#8 .jmp ∧ NoDataTest 0x80#8 .jmp ∧ FetchTested

/-- 43_control.md R161. -/
def Obligations.JnJumpsIfNegative : Prop :=
  (∀ (s : State) (v : Byte), ∃ t, exec (.jn v) s = .next t ∧
    t.pc = (if s.n = true then 4 + 2 * v.toNat else s.pc + 4) ∧ t.ac = s.ac ∧ MemoryKept s t ∧ StatusKept s t ∧
    FlagsKept s t ∧
    (s.Running → s.n = true → s.mem.size ≤ 4 + 2 * v.toNat → stepEvent t = .outOfBounds .fetch (4 + 2 * v.toNat))) ∧
  (∀ s : State, s.FlagsInv → (s.n = true ↔ 128 ≤ s.ac.toNat)) ∧
  TwoCells 0x90#8 .jn ∧ NoDataTest 0x90#8 .jn ∧ FetchTested

/-- 43_control.md R162. -/
def Obligations.JzJumpsIfZero : Prop :=
  (∀ (s : State) (v : Byte), ∃ t, exec (.jz v) s = .next t ∧
    t.pc = (if s.z = true then 4 + 2 * v.toNat else s.pc + 4) ∧ t.ac = s.ac ∧ MemoryKept s t ∧ StatusKept s t ∧
    FlagsKept s t ∧
    (s.Running → s.z = true → s.mem.size ≤ 4 + 2 * v.toNat → stepEvent t = .outOfBounds .fetch (4 + 2 * v.toNat))) ∧
  (∀ s : State, s.FlagsInv → (s.z = true ↔ s.ac.toNat = 0)) ∧
  TwoCells 0xA0#8 .jz ∧ NoDataTest 0xA0#8 .jz ∧ FetchTested

/-- 43_control.md R163. -/
def Obligations.HltHalts : Prop :=
  (∀ s : State, ∃ t, exec .hlt s = .next t ∧ t.halt = true ∧ t.pc = s.pc + 2 ∧ t.ac = s.ac ∧ t.oob = s.oob ∧
    MemoryKept s t ∧ FlagsKept s t ∧ t.terminal = true ∧
    ∀ k, runFor k t = t ∧ eventsFor k t = List.replicate k .noOp) ∧
  OneCell 0xF0#8 .hlt ∧ FetchTested

/-- NOT, ADD of a cell holding 1, NOT: AC - 1 where AC is at least 1, and 0 where it is 0, since 255 + 1 saturates. -/
def Obligations.NotAddNotDecrements : Prop :=
  ∀ (s t u w : State) (v v' x : Byte), s.mem.load (4 + 2 * x.toNat) = some 1#8 →
    exec (.not v) s = .next t → exec (.add x) t = .next u → exec (.not v') u = .next w →
    w.ac.toNat = s.ac.toNat - 1

/-! The disassembler and the observations. -/

/-- The two-mode scan, one token for each cell from offset 4 to the end, and the eleven spellings (45_disassembler.md sections on
spelling and scan). One token a cell is the spec's decision D9 (conflict C2), DESIGN CHOICE: log entry 7; plain decimal its
decision D23; NOT's operand its decision D8. -/
def Obligations.DisassemblerIsTheTwoModeScan : Prop :=
  (∀ m : Memory, ∃ mode : Nat → ScanMode, mode 0 = .expectInstruction ∧
    ∀ k, (4 + 2 * k < m.size → ∃ b, m.load (4 + 2 * k) = some b ∧
        (disassemble m)[k]? = some (match mode k, decodeOpcode b with
          | .expectInstruction, some o => o.mnemonic
          | .expectInstruction, none => decimal b
          | .expectOperand, _ => decimal b) ∧
        mode (k + 1) = (match mode k, decodeOpcode b with
          | .expectInstruction, some .nop => .expectInstruction
          | .expectInstruction, some .hlt => .expectInstruction
          | .expectInstruction, some _ => .expectOperand
          | .expectInstruction, none => .expectInstruction
          | .expectOperand, _ => .expectInstruction)) ∧
      (m.size ≤ 4 + 2 * k → (disassemble m)[k]? = none)) ∧
  [0x00#8, 0x10#8, 0x20#8, 0x30#8, 0x40#8, 0x50#8, 0x60#8, 0x80#8, 0x90#8, 0xA0#8, 0xF0#8].map
      (fun b => (decodeOpcode b).map Opcode.mnemonic) =
    ["NOP", "STA", "LDA", "ADD", "OR", "AND", "NOT", "JMP", "JN", "JZ", "HLT"].map some

/-- One token for each valid cell (45_disassembler.md section on output length, the spec's inference from the scan,
so from its decision D9: log entry 7). -/
def Obligations.OneTokenForEachValidCell : Prop :=
  (∀ m : Memory, 4 ≤ m.size → (disassemble m).length = (m.size - 3) / 2) ∧
  (∀ m : Memory, m.size = 4 → disassemble m = [])

/-- A value token is the byte in decimal digits, with no leading zero (the spec's decision D23). -/
def Obligations.ValueTokenIsPlainDecimal : Prop :=
  ∀ b : Byte, (decimal b).toList.foldl (fun x c => 10 * x + (c.toNat - 48)) 0 = b.toNat ∧
    (decimal b).toList.all (fun c => 48 ≤ c.toNat && c.toNat ≤ 57) = true ∧
    (decimal b).toList.length = (if b.toNat < 10 then 1 else if b.toNat < 100 then 2 else 3)

/-- As long as execution from cell 0 falls through with memory unchanged, the cells the engine fetches as opcodes are the cells
the scan reads in expect-instruction mode, and those it fetches as operands the ones it reads in expect-operand mode
(45_disassembler.md section on alignment, the spec's inference from the scan, so from its decisions D8 and D9: log entries 6, 7). -/
def Obligations.ScanAlignsWithTheEngine : Prop :=
  ∀ (s : State) (k : Nat), s.pc = 4 → (∀ j, j < k → FallsThrough (runFor j s)) →
    opcodeOffsets k s <+: scannedIn .expectInstruction s.mem ∧
    operandOffsets k s <+: scannedIn .expectOperand s.mem

/-- What the host reads (10_state.md section 8): the registers as they are, VPC untruncated (the spec's decision D20), every byte
of the buffer, the tokens, and `status`, which tells HLT from OutOfBounds (the spec's decision D5). -/
def Obligations.ObservationsReadTheState : Prop :=
  ∀ s : State, s.Inv →
    s.observe.ac = s.ac ∧ s.observe.z = s.z ∧ s.observe.n = s.n ∧ s.observe.halted = s.halt ∧
    4 + 2 * s.observe.vpc = s.pc ∧ s.observe.bytes.length = s.mem.size ∧
    (∀ o, s.observe.bytes[o]? = s.mem.load o) ∧ s.observe.tokens = disassemble s.mem ∧
    (s.observe.status = .running ↔ s.Running) ∧ (s.observe.status = .halted ↔ s.halt = true) ∧
    (∀ ph o, s.observe.status = .outOfBounds ph o ↔ s.oob = some ⟨ph, o⟩)

/-- A source of the spec's own assembler syntax that assembles (30_encoding.md section 4, the spec's decision D18; log entry 16): its
image loads, and each line's item stands at its own cell, a label naming the cell of the line that carries it. -/
def Obligations.AssembledSourceLoadsItemByItem : Prop :=
  ∀ (source : List AsmLine) (img : List Byte), assemble source = .image img →
    ∃ t, load img = .next t ∧ ∀ (k : Nat) (l : AsmLine), source[k]? = some l →
      (l.item = .nop → fetch { t with pc := lineOffset source k } = .instr .nop) ∧
      (l.item = .hlt → fetch { t with pc := lineOffset source k } = .instr .hlt) ∧
      (l.item = .not → fetch { t with pc := lineOffset source k } = .instr (.not 0#8)) ∧
      (∀ n, l.item = .byte n → n ≤ 255 ∧ t.mem.load (lineOffset source k) = some (BitVec.ofNat 8 n)) ∧
      (∀ m a, l.item = .address m a → ∃ i v, fetch { t with pc := lineOffset source k } = .instr i ∧ i.opcode = m ∧
        i.operand = some v ∧ (∀ x, a = .number x → v.toNat = x) ∧
        (∀ (name : String) (j : Nat) (d : AsmLine), a = .label name → source[j]? = some d → d.label = some name →
          translateAddr v = lineOffset source j))
end

