-- ==== Sys2Proof/Laws/Decode.lean ====
section
/-! SUPPORT. What the decoder's and the encoder's parts do. -/

namespace Sys2Proof

variable {b op p q v : Byte} {o : Opcode} {i : Instr}

/-- The decoder's map and the encoder's table agree: a byte decodes to an opcode exactly when it is that opcode's byte. -/
theorem decodeOpcode_eq_some : decodeOpcode b = some o ↔ b = o.byte := by
  have h : ∀ b : Byte, decodeOpcode b = some o ↔ b = o.byte := by cases o <;> decide
  exact h b

@[simp] theorem decodeOpcode_byte (o : Opcode) : decodeOpcode o.byte = some o := decodeOpcode_eq_some.2 rfl

/-- The two formats, told apart by the operand of the instruction they give. -/
theorem format_z {j : Instr} (h : o.format = .z j) : j.opcode = o ∧ j.operand = none ∧ o.hasOperand = false := by
  cases o <;> simp only [Opcode.format, Format.z.injEq, reduceCtorEq] at h <;> subst h <;> exact ⟨rfl, rfl, rfl⟩

theorem format_a {mk : Byte → Instr} (h : o.format = .a mk) (v : Byte) :
    (mk v).opcode = o ∧ (mk v).operand = some v ∧ o.hasOperand = true := by
  cases o <;> simp only [Opcode.format, Format.a.injEq, reduceCtorEq] at h <;> subst h <;> exact ⟨rfl, rfl, rfl⟩

/-- An instruction with no operand is the one its opcode's format gives. -/
theorem format_of_operand_none (h : i.operand = none) : i.opcode.format = .z i := by
  cases i <;> simp_all [Instr.operand] <;> rfl

/-- An instruction with an operand is the one its opcode's format builds from it. -/
theorem format_of_operand_some (h : i.operand = some v) : ∃ mk, i.opcode.format = .a mk ∧ mk v = i := by
  cases i <;> simp only [Instr.operand, Option.some.injEq, reduceCtorEq] at h <;> subst h <;> exact ⟨_, rfl, rfl⟩

theorem hasOperand_opcode (i : Instr) : i.opcode.hasOperand = i.operand.isSome := by cases i <;> rfl

@[simp] theorem wordBytes_cellWord (v p : Byte) : wordBytes (cellWord v p) = [v, p] := by
  have low : BitVec.extractLsb' 0 8 (p ++ v : BitVec (8 + 8)) = v := by
    apply BitVec.eq_of_getLsbD_eq; intro k hk; rw [BitVec.getLsbD_extractLsb', BitVec.getLsbD_append]; simp [hk]
  have high : BitVec.extractLsb' 8 8 (p ++ v : BitVec (8 + 8)) = p := by
    apply BitVec.eq_of_getLsbD_eq; intro k hk; rw [BitVec.getLsbD_extractLsb', BitVec.getLsbD_append]; simp [hk]
  exact congrArg₂ (fun x y => [x, y]) low high

/-- The bytes of a one-cell instruction. -/
theorem encodeWith_z (h : i.operand = none) : encodeWith p q i = [i.opcode.byte, p] := by
  simp [encodeWith, encodeWords, h]

/-- The bytes of a two-cell instruction. -/
theorem encodeWith_a (h : i.operand = some v) : encodeWith p q i = [i.opcode.byte, p, v, q] := by
  simp [encodeWith, encodeWords, h]

end Sys2Proof
end

