-- ==== Sys2Proof/Laws/Assembler.lean ====
section
/-! SUPPORT. What the assembler gives for one item. -/

namespace Sys2Proof.Machine

variable {labels : List (String × Nat)} {i : AsmItem} {bytes : List Byte}

/-- Everything an item that assembles can be. -/
theorem asmItem_cases (h : asmItem labels i = .ok bytes) : i.wellFormed = true ∧
    ((i = .nop ∧ bytes = encode .nop) ∨ (i = .hlt ∧ bytes = encode .hlt) ∨ (i = .not ∧ bytes = encode (.not 0#8)) ∨
    (∃ n, i = .byte n ∧ bytes = [BitVec.ofNat 8 n, 0#8]) ∨
    (∃ m a v mk, i = .address m a ∧ asmAddress labels a = .ok v ∧ m.format = .a mk ∧ bytes = encode (mk v))) := by
  unfold asmItem at h
  split at h
  · rename_i hw
    refine ⟨hw, ?_⟩
    cases i with
    | nop => simp at h; exact .inl ⟨rfl, h.symm⟩
    | hlt => simp at h; exact .inr (.inl ⟨rfl, h.symm⟩)
    | not => simp at h; exact .inr (.inr (.inl ⟨rfl, h.symm⟩))
    | byte n => simp at h; exact .inr (.inr (.inr (.inl ⟨n, rfl, h.symm⟩)))
    | address m a =>
      simp only at h
      split at h
      · cases h
      · rename_i v hv
        split at h
        · cases h
        · rename_i mk hmk; injection h with h; exact .inr (.inr (.inr (.inr ⟨m, a, v, mk, rfl, hv, hmk, h.symm⟩)))
  · cases h

theorem encode_length (j : Instr) : (encode j).length = if j.opcode.hasOperand then 4 else 2 := by cases j <;> rfl

/-- An item takes two bytes for each of its cells. -/
theorem asmItem_length (h : asmItem labels i = .ok bytes) : bytes.length = 2 * asmCells i := by
  obtain ⟨-, ⟨rfl, rfl⟩ | ⟨rfl, rfl⟩ | ⟨rfl, rfl⟩ | ⟨n, rfl, rfl⟩ | ⟨m, a, v, mk, rfl, -, hm, rfl⟩⟩ := asmItem_cases h
  · rfl
  · rfl
  · rfl
  · rfl
  · obtain ⟨e, -, e3⟩ := format_a hm v; rw [encode_length, e, e3]; rfl

end Sys2Proof.Machine
end

