-- ==== Sys2Proof/Laws/Memory.lean ====
section
/-! SUPPORT. What the memory operations do: reads after writes, the canonical form, and the buffer a memory stands for. -/

namespace Sys2Proof.Machine.Memory

variable {hi lo lo' o a k : Nat} {b c : Byte} {cs ds : List Host.Cell} {m m' : Memory}

theorem canonicalFrom_cons :
    canonicalFrom hi lo ((k, b) :: cs) = true ↔ lo ≤ k ∧ k < hi ∧ b ≠ unlisted ∧ canonicalFrom hi (k + 1) cs = true := by
  simp [canonicalFrom, and_assoc]

/-- The canonical form from an offset on holds from any lower offset on. -/
theorem canonicalFrom_mono (h : canonicalFrom hi lo cs = true) (hle : lo' ≤ lo) : canonicalFrom hi lo' cs = true := by
  cases cs with
  | nil => rfl
  | cons p cs => obtain ⟨k, b⟩ := p; simp only [canonicalFrom_cons] at h ⊢; exact ⟨by omega, h.2⟩

/-- A longer buffer keeps the canonical form. -/
theorem canonicalFrom_grow {hi' : Nat} (hle : hi ≤ hi') (h : canonicalFrom hi lo cs = true) :
    canonicalFrom hi' lo cs = true := by
  induction cs generalizing lo with
  | nil => rfl
  | cons p cs ih =>
    obtain ⟨k, b⟩ := p
    simp only [canonicalFrom_cons] at h ⊢
    exact ⟨h.1, by omega, h.2.2.1, ih h.2.2.2⟩

/-- Nothing is listed below the offset a canonical list starts from. -/
theorem lookup_below (h : canonicalFrom hi lo cs = true) (ho : o < lo) : lookup o cs = unlisted := by
  induction cs generalizing lo with
  | nil => rfl
  | cons p cs ih =>
    obtain ⟨k, b⟩ := p
    rw [canonicalFrom_cons] at h
    rw [lookup, if_neg (by omega)]
    exact ih h.2.2.2 (by omega)

/-- Nothing is listed from the end of the buffer on. -/
theorem lookup_beyond (h : canonicalFrom hi lo cs = true) (ho : hi ≤ o) : lookup o cs = unlisted := by
  induction cs generalizing lo with
  | nil => rfl
  | cons p cs ih =>
    obtain ⟨k, b⟩ := p
    rw [canonicalFrom_cons] at h
    rw [lookup, if_neg (by omega)]
    exact ih h.2.2.2

/-- A write leaves every other offset alone, whatever the list. -/
theorem lookup_insert_other (h : a ≠ o) : lookup a (insert o b cs) = lookup a cs := by
  induction cs with
  | nil => simp only [insert]; split <;> simp [lookup, Ne.symm h]
  | cons p cs ih =>
    obtain ⟨k, c⟩ := p
    simp only [insert]
    split
    · split <;> simp [lookup, Ne.symm h]
    · split
      · subst o; split <;> simp [lookup, Ne.symm h]
      · simp [lookup, ih]

/-- A read after a write to the same offset gives the byte written. -/
theorem lookup_insert_same (h : canonicalFrom hi lo cs = true) : lookup o (insert o b cs) = b := by
  induction cs generalizing lo with
  | nil => simp only [insert]; split <;> simp_all [lookup]
  | cons p cs ih =>
    obtain ⟨k, c⟩ := p
    rw [canonicalFrom_cons] at h
    simp only [insert]
    split
    · split
      · rw [lookup, if_neg (by omega), lookup_below h.2.2.2 (by omega)]; exact (‹b = unlisted›).symm
      · simp [lookup]
    · split
      · subst o
        split
        · rw [lookup_below h.2.2.2 (by omega)]; exact (‹b = unlisted›).symm
        · simp [lookup]
      · rw [lookup, if_neg (by omega)]; exact ih h.2.2.2

/-- A write within the buffer keeps the canonical form. -/
theorem canonicalFrom_insert (h : canonicalFrom hi lo cs = true) (hlo : lo ≤ o) (hhi : o < hi) :
    canonicalFrom hi lo (insert o b cs) = true := by
  induction cs generalizing lo with
  | nil =>
    simp only [insert]
    split
    · rfl
    · exact canonicalFrom_cons.2 ⟨hlo, hhi, ‹_›, rfl⟩
  | cons p cs ih =>
    obtain ⟨k, c⟩ := p
    have hc := canonicalFrom_cons.1 h
    simp only [insert]
    split
    · split
      · exact h
      · exact canonicalFrom_cons.2 ⟨hlo, hhi, ‹_›, canonicalFrom_cons.2 ⟨by omega, hc.2⟩⟩
    · split
      · subst o
        split
        · exact canonicalFrom_mono hc.2.2.2 (by omega)
        · exact canonicalFrom_cons.2 ⟨hlo, hhi, ‹_›, hc.2.2.2⟩
      · exact canonicalFrom_cons.2 ⟨hc.1, hc.2.1, hc.2.2.1, ih hc.2.2.2 (by omega)⟩

/-- Canonical lists that read alike are equal. -/
theorem canonicalFrom_ext (hc : canonicalFrom hi lo cs = true) (hd : canonicalFrom hi lo ds = true)
    (h : ∀ o, lookup o cs = lookup o ds) : cs = ds := by
  induction cs generalizing lo ds with
  | nil =>
    cases ds with
    | nil => rfl
    | cons q ds =>
      obtain ⟨k, b⟩ := q
      have := h k
      simp only [lookup, if_true] at this
      exact absurd this.symm (canonicalFrom_cons.1 hd).2.2.1
  | cons p cs ih =>
    obtain ⟨k, b⟩ := p
    have hc' := canonicalFrom_cons.1 hc
    cases ds with
    | nil =>
      have := h k
      simp only [lookup, if_true] at this
      exact absurd this hc'.2.2.1
    | cons q ds =>
      obtain ⟨j, c⟩ := q
      have hd' := canonicalFrom_cons.1 hd
      have hkj : k = j := by
        rcases Nat.lt_trichotomy k j with hlt | heq | hgt
        · have := h k
          rw [lookup, if_pos rfl, lookup, if_neg (by omega), lookup_below hd'.2.2.2 (by omega)] at this
          exact absurd this hc'.2.2.1
        · exact heq
        · have := h j
          rw [lookup, if_neg (by omega), lookup_below hc'.2.2.2 (by omega), lookup, if_pos rfl] at this
          exact absurd this.symm hd'.2.2.1
      subst j
      have hbc : b = c := by simpa [lookup] using h k
      subst c
      rw [ih hc'.2.2.2 hd'.2.2.2]
      intro o
      by_cases ho : k = o
      · subst o; rw [lookup_below hc'.2.2.2 (by omega), lookup_below hd'.2.2.2 (by omega)]
      · simpa [lookup, ho] using h o

/-! Loads and stores. -/

theorem load_eq_some : m.load o = some b ↔ o < m.size ∧ lookup o m.cells = b := by simp [load, inb]

@[simp] theorem load_eq_none : m.load o = none ↔ m.size ≤ o := by simp [load, inb]

theorem load_of_lt (h : o < m.size) : m.load o = some (lookup o m.cells) := load_eq_some.2 ⟨h, rfl⟩

/-- Everything a store does: it needs its offset in the buffer, and then it inserts. -/
theorem store_eq_some : m.store o b = some m' ↔ o < m.size ∧ m' = { m with cells := insert o b m.cells } := by
  simp [store, inb, eq_comm]

@[simp] theorem store_eq_none : m.store o b = none ↔ m.size ≤ o := by simp [store, inb]

theorem store_size (h : m.store o b = some m') : m'.size = m.size := by rw [(store_eq_some.1 h).2]

theorem store_load_other (h : m.store o b = some m') (ha : a ≠ o) : m'.load a = m.load a := by
  rw [(store_eq_some.1 h).2]; simp [load, inb, lookup_insert_other ha]

theorem store_load_same (hm : m.wf = true) (h : m.store o b = some m') : m'.load o = some b := by
  obtain ⟨ho, rfl⟩ := store_eq_some.1 h
  exact load_eq_some.2 ⟨ho, lookup_insert_same hm⟩

theorem store_wf (hm : m.wf = true) (h : m.store o b = some m') : m'.wf = true := by
  obtain ⟨ho, rfl⟩ := store_eq_some.1 h
  exact canonicalFrom_insert hm (Nat.zero_le _) ho

/-! Buffers. -/

theorem canonicalFrom_cellsFrom (img : List Byte) : canonicalFrom (lo + img.length) lo (cellsFrom lo img) = true := by
  induction img generalizing lo with
  | nil => rfl
  | cons b img ih =>
    have h := ih (lo := lo + 1)
    rw [List.length_cons]
    rw [show lo + 1 + img.length = lo + (img.length + 1) by omega] at h
    simp only [cellsFrom]
    split
    · exact canonicalFrom_mono h (by omega)
    · exact canonicalFrom_cons.2 ⟨Nat.le_refl _, by omega, ‹_›, h⟩

theorem ofBytes_wf (img : List Byte) : (ofBytes img).wf = true := by
  simpa [wf, ofBytes] using canonicalFrom_cellsFrom (lo := 0) img

theorem lookup_cellsFrom (img : List Byte) (h : lo ≤ o) : lookup o (cellsFrom lo img) = img[o - lo]?.getD unlisted := by
  induction img generalizing lo with
  | nil => rfl
  | cons b img ih =>
    by_cases ho : o = lo
    · subst o
      simp only [cellsFrom, Nat.sub_self]
      split
      · rw [lookup_below (canonicalFrom_cellsFrom img) (by omega)]; simp [*]
      · simp [lookup]
    · have hs : o - lo = (o - (lo + 1)) + 1 := by omega
      rw [hs, List.getElem?_cons_succ, ← ih (by omega)]
      simp only [cellsFrom]
      split
      · rfl
      · rw [lookup, if_neg (by omega)]

/-- A loaded buffer reads back byte for byte. -/
theorem load_ofBytes (img : List Byte) (o : Nat) : (ofBytes img).load o = img[o]? := by
  by_cases h : o < img.length
  · rw [load_of_lt (m := ofBytes img) h]
    simp [ofBytes, lookup_cellsFrom img (Nat.zero_le o), h]
  · rw [load_eq_none.2 (by simpa [ofBytes] using h)]; simp; omega

@[simp] theorem toBytes_length : m.toBytes.length = m.size := by simp [toBytes]

theorem getElem?_toBytes : m.toBytes[o]? = m.load o := by
  by_cases h : o < m.size
  · rw [load_of_lt h]; simp [toBytes, h]
  · rw [load_eq_none.2 (by omega)]; simp; omega

/-! Placing bytes. -/

theorem canonicalFrom_placeCells (bs : List Byte) (h : canonicalFrom hi 0 cs = true) (hhi : o + bs.length ≤ hi) :
    canonicalFrom hi 0 (placeCells o bs cs) = true := by
  induction bs generalizing o cs with
  | nil => exact h
  | cons b bs ih =>
    rw [List.length_cons] at hhi
    exact ih (canonicalFrom_insert h (Nat.zero_le _) (by omega)) (by omega)

theorem place_wf (bs : List Byte) (hm : m.wf = true) : (m.place o bs).wf = true :=
  canonicalFrom_placeCells bs (canonicalFrom_grow (Nat.le_max_left _ _) hm) (Nat.le_max_right _ _)

theorem lookup_placeCells_below (bs : List Byte) (h : a < o) : lookup a (placeCells o bs cs) = lookup a cs := by
  induction bs generalizing o cs with
  | nil => rfl
  | cons b bs ih => rw [placeCells, ih (by omega), lookup_insert_other (by omega)]

theorem lookup_placeCells (bs : List Byte) (h : canonicalFrom hi 0 cs = true) (hhi : o + bs.length ≤ hi)
    (hk : k < bs.length) : lookup (o + k) (placeCells o bs cs) = bs[k] := by
  induction bs generalizing o cs k with
  | nil => simp at hk
  | cons b bs ih =>
    rw [List.length_cons] at hhi hk
    cases k with
    | zero => rw [Nat.add_zero, placeCells, lookup_placeCells_below bs (by omega), lookup_insert_same h]; rfl
    | succ k =>
      have h' : canonicalFrom hi 0 (insert o b cs) = true := canonicalFrom_insert h (Nat.zero_le _) (by omega)
      have := ih (o := o + 1) (k := k) h' (by omega) (by omega)
      rw [placeCells, show o + (k + 1) = o + 1 + k by omega, this]; rfl

/-- The bytes placed are the bytes read there. -/
theorem load_place (bs : List Byte) (hm : m.wf = true) (hk : k < bs.length) : (m.place o bs).load (o + k) = some bs[k] :=
  load_eq_some.2 ⟨by simp only [place]; omega,
    lookup_placeCells bs (canonicalFrom_grow (Nat.le_max_left _ (o + bs.length)) hm) (Nat.le_max_right _ _) hk⟩

end Sys2Proof.Machine.Memory
end

