-- ==== Sys2Proof/Laws/State.lean ====
section
/-! SUPPORT. One lemma per field per update of the state, so that no later proof unfolds a record update. -/

namespace Sys2Proof.Machine

@[simp] theorem State.setAc_mem (s : State) (b : Byte) : (s.setAc b).mem = s.mem := rfl
@[simp] theorem State.setAc_ac (s : State) (b : Byte) : (s.setAc b).ac = b := rfl
@[simp] theorem State.setAc_pc (s : State) (b : Byte) : (s.setAc b).pc = s.pc := rfl
@[simp] theorem State.setAc_z (s : State) (b : Byte) : (s.setAc b).z = s.z := rfl
@[simp] theorem State.setAc_n (s : State) (b : Byte) : (s.setAc b).n = s.n := rfl
@[simp] theorem State.setAc_halt (s : State) (b : Byte) : (s.setAc b).halt = s.halt := rfl
@[simp] theorem State.setAc_oob (s : State) (b : Byte) : (s.setAc b).oob = s.oob := rfl

@[simp] theorem State.setPc_mem (s : State) (o : Nat) : (s.setPc o).mem = s.mem := rfl
@[simp] theorem State.setPc_ac (s : State) (o : Nat) : (s.setPc o).ac = s.ac := rfl
@[simp] theorem State.setPc_pc (s : State) (o : Nat) : (s.setPc o).pc = o := rfl
@[simp] theorem State.setPc_z (s : State) (o : Nat) : (s.setPc o).z = s.z := rfl
@[simp] theorem State.setPc_n (s : State) (o : Nat) : (s.setPc o).n = s.n := rfl
@[simp] theorem State.setPc_halt (s : State) (o : Nat) : (s.setPc o).halt = s.halt := rfl
@[simp] theorem State.setPc_oob (s : State) (o : Nat) : (s.setPc o).oob = s.oob := rfl

@[simp] theorem State.setMem_mem (s : State) (m : Memory) : (s.setMem m).mem = m := rfl
@[simp] theorem State.setMem_ac (s : State) (m : Memory) : (s.setMem m).ac = s.ac := rfl
@[simp] theorem State.setMem_pc (s : State) (m : Memory) : (s.setMem m).pc = s.pc := rfl
@[simp] theorem State.setMem_z (s : State) (m : Memory) : (s.setMem m).z = s.z := rfl
@[simp] theorem State.setMem_n (s : State) (m : Memory) : (s.setMem m).n = s.n := rfl
@[simp] theorem State.setMem_halt (s : State) (m : Memory) : (s.setMem m).halt = s.halt := rfl
@[simp] theorem State.setMem_oob (s : State) (m : Memory) : (s.setMem m).oob = s.oob := rfl

@[simp] theorem State.setFlags_mem (s : State) (f : Bool × Bool) : (s.setFlags f).mem = s.mem := rfl
@[simp] theorem State.setFlags_ac (s : State) (f : Bool × Bool) : (s.setFlags f).ac = s.ac := rfl
@[simp] theorem State.setFlags_pc (s : State) (f : Bool × Bool) : (s.setFlags f).pc = s.pc := rfl
@[simp] theorem State.setFlags_z (s : State) (f : Bool × Bool) : (s.setFlags f).z = f.1 := rfl
@[simp] theorem State.setFlags_n (s : State) (f : Bool × Bool) : (s.setFlags f).n = f.2 := rfl
@[simp] theorem State.setFlags_halt (s : State) (f : Bool × Bool) : (s.setFlags f).halt = s.halt := rfl
@[simp] theorem State.setFlags_oob (s : State) (f : Bool × Bool) : (s.setFlags f).oob = s.oob := rfl

@[simp] theorem State.setHalt_mem (s : State) : (s.setHalt).mem = s.mem := rfl
@[simp] theorem State.setHalt_ac (s : State) : (s.setHalt).ac = s.ac := rfl
@[simp] theorem State.setHalt_pc (s : State) : (s.setHalt).pc = s.pc := rfl
@[simp] theorem State.setHalt_z (s : State) : (s.setHalt).z = s.z := rfl
@[simp] theorem State.setHalt_n (s : State) : (s.setHalt).n = s.n := rfl
@[simp] theorem State.setHalt_halt (s : State) : (s.setHalt).halt = true := rfl
@[simp] theorem State.setHalt_oob (s : State) : (s.setHalt).oob = s.oob := rfl

@[simp] theorem State.raise_mem (s : State) (p : Phase) (o : Nat) : (s.raise p o).mem = s.mem := rfl
@[simp] theorem State.raise_ac (s : State) (p : Phase) (o : Nat) : (s.raise p o).ac = s.ac := rfl
@[simp] theorem State.raise_pc (s : State) (p : Phase) (o : Nat) : (s.raise p o).pc = s.pc := rfl
@[simp] theorem State.raise_z (s : State) (p : Phase) (o : Nat) : (s.raise p o).z = s.z := rfl
@[simp] theorem State.raise_n (s : State) (p : Phase) (o : Nat) : (s.raise p o).n = s.n := rfl
@[simp] theorem State.raise_halt (s : State) (p : Phase) (o : Nat) : (s.raise p o).halt = s.halt := rfl
@[simp] theorem State.raise_oob (s : State) (p : Phase) (o : Nat) : (s.raise p o).oob = some ⟨p, o⟩ := rfl

@[simp] theorem State.advance_mem (s : State) (k : Nat) : (s.advance k).mem = s.mem := rfl
@[simp] theorem State.advance_ac (s : State) (k : Nat) : (s.advance k).ac = s.ac := rfl
@[simp] theorem State.advance_pc (s : State) (k : Nat) : (s.advance k).pc = s.pc + 2 * k := rfl
@[simp] theorem State.advance_z (s : State) (k : Nat) : (s.advance k).z = s.z := rfl
@[simp] theorem State.advance_n (s : State) (k : Nat) : (s.advance k).n = s.n := rfl
@[simp] theorem State.advance_halt (s : State) (k : Nat) : (s.advance k).halt = s.halt := rfl
@[simp] theorem State.advance_oob (s : State) (k : Nat) : (s.advance k).oob = s.oob := rfl

@[simp] theorem State.updateFlags_mem (s : State) : (s.updateFlags).mem = s.mem := rfl
@[simp] theorem State.updateFlags_ac (s : State) : (s.updateFlags).ac = s.ac := rfl
@[simp] theorem State.updateFlags_pc (s : State) : (s.updateFlags).pc = s.pc := rfl
@[simp] theorem State.updateFlags_z (s : State) : (s.updateFlags).z = (flagsOf s.ac).1 := rfl
@[simp] theorem State.updateFlags_n (s : State) : (s.updateFlags).n = (flagsOf s.ac).2 := rfl
@[simp] theorem State.updateFlags_halt (s : State) : (s.updateFlags).halt = s.halt := rfl
@[simp] theorem State.updateFlags_oob (s : State) : (s.updateFlags).oob = s.oob := rfl

end Sys2Proof.Machine
end

