-- ==== Sys2Proof/Laws/Exec.lean ====
section
/-! SUPPORT. What the shared operations and the meanings can do, said once. -/

namespace Sys2Proof.Machine

variable {s t : State} {i : Instr} {v b : Byte} {f : Byte → Byte → Byte}

@[simp] theorem headerBytes_eq : Config.headerBytes = 4 := rfl

@[simp] theorem cellBytes_eq : Config.cellBytes = 2 := rfl

theorem translateAddr_eq (v : Byte) : translateAddr v = 4 + 2 * v.toNat := rfl

theorem translateAddr_lower (v : Byte) : 4 ≤ translateAddr v := Nat.le_add_right _ _

theorem translateAddr_upper (v : Byte) : translateAddr v ≤ 514 := by rw [translateAddr_eq]; have := v.isLt; omega

theorem translateAddr_inj {w : Byte} (h : translateAddr v = translateAddr w) : v = w := by
  rw [translateAddr_eq, translateAddr_eq] at h; exact BitVec.eq_of_toNat_eq (by omega)

/-- Every meaning that runs ends here: the flags are recomputed. -/
theorem retire_eq (s : State) : retire s = .next s.updateFlags := rfl

theorem intoAccumulator_some (h : s.mem.load (translateAddr v) = some b) :
    intoAccumulator f v s = .next ((s.setAc (f s.ac b)).advance 2).updateFlags := by
  simp only [intoAccumulator, h, retire_eq]

theorem intoAccumulator_none (h : s.mem.size ≤ translateAddr v) :
    intoAccumulator f v s = .next (s.raise .data (translateAddr v)) := by
  simp only [intoAccumulator, Memory.load_eq_none.2 h]

theorem jumpIf_eq (c : Bool) :
    jumpIf c v s = .next (if c then s.setPc (translateAddr v) else s.advance 2).updateFlags := rfl

/-- A state is terminal iff `HALT = true` or `OOB != none` (10_state.md R31). -/
theorem terminal_iff : s.terminal = true ↔ s.halt = true ∨ s.oob ≠ none := by
  simp [State.terminal, Option.isSome_iff_ne_none]

theorem flagsOf_fst (a : Byte) : (flagsOf a).1 = true ↔ a.toNat = 0 := by simp [flagsOf]

theorem flagsOf_snd (a : Byte) : (flagsOf a).2 = true ↔ 128 ≤ a.toNat := by simp [flagsOf]

/-- The saturating add, exactly (42_alu.md R140). -/
theorem satAdd_toNat (a b : Byte) : (satAdd a b).toNat = min (a.toNat + b.toNat) 255 := by
  rw [satAdd, BitVec.toNat_ofNat]; omega

/-- The state an instruction leaves before its flags are recomputed, where its data address, if it has one, is in the
buffer. -/
def completed (i : Instr) (s : State) : State :=
  match i with
  | .nop => s.advance 1
  | .sta v => (s.setMem { s.mem with cells := Memory.insert (translateAddr v) s.ac s.mem.cells }).advance 2
  | .lda v => (s.setAc (Memory.lookup (translateAddr v) s.mem.cells)).advance 2
  | .add v => (s.setAc (satAdd s.ac (Memory.lookup (translateAddr v) s.mem.cells))).advance 2
  | .or v => (s.setAc (s.ac ||| Memory.lookup (translateAddr v) s.mem.cells)).advance 2
  | .and v => (s.setAc (s.ac &&& Memory.lookup (translateAddr v) s.mem.cells)).advance 2
  | .not _ => (s.setAc (~~~s.ac)).advance 2
  | .jmp v => s.setPc (translateAddr v)
  | .jn v => if s.n then s.setPc (translateAddr v) else s.advance 2
  | .jz v => if s.z then s.setPc (translateAddr v) else s.advance 2
  | .hlt => s.setHalt.advance 1

/-- Everything an instruction of the shape of LDA, ADD, OR and AND can do. -/
theorem exec_cases_of_intoAccumulator (i : Instr) (hd : dataAddress i = some (translateAddr v)) (hx : exec i s = intoAccumulator f v s)
    (hc : completed i s = (s.setAc (f s.ac (Memory.lookup (translateAddr v) s.mem.cells))).advance 2) :
    (∃ a, dataAddress i = some a ∧ s.mem.size ≤ a ∧ exec i s = .next (s.raise .data a) ∧
      execEvent i s = .outOfBounds .data a) ∨
    ((∀ a, dataAddress i = some a → a < s.mem.size) ∧ exec i s = .next (completed i s).updateFlags ∧
      execEvent i s = .executed i) := by
  by_cases h : translateAddr v < s.mem.size
  · exact .inr ⟨by simpa [hd] using h, by rw [hx, hc, intoAccumulator_some (Memory.load_of_lt h)],
      by simp [execEvent, hd, Memory.inb, h]⟩
  · exact .inl ⟨_, hd, by omega, by rw [hx, intoAccumulator_none (by omega)], by simp [execEvent, hd, Memory.inb, h]⟩

/-- Everything an instruction can do: its data address lies beyond the buffer and it raises OutOfBounds, or it completes. -/
theorem exec_cases (i : Instr) (s : State) :
    (∃ a, dataAddress i = some a ∧ s.mem.size ≤ a ∧ exec i s = .next (s.raise .data a) ∧
      execEvent i s = .outOfBounds .data a) ∨
    ((∀ a, dataAddress i = some a → a < s.mem.size) ∧ exec i s = .next (completed i s).updateFlags ∧
      execEvent i s = .executed i) := by
  cases i
  case sta v =>
    by_cases h : translateAddr v < s.mem.size
    · refine .inr ⟨by simpa [dataAddress] using h, ?_, by simp [execEvent, dataAddress, Memory.inb, h]⟩
      have hs : s.mem.store (translateAddr v) s.ac =
          some { s.mem with cells := Memory.insert (translateAddr v) s.ac s.mem.cells } := Memory.store_eq_some.2 ⟨h, rfl⟩
      simp only [exec, execSta, hs, completed, retire_eq]
    · refine .inl ⟨_, rfl, by omega, ?_, by simp [execEvent, dataAddress, Memory.inb, h]⟩
      simp only [exec, execSta, Memory.store_eq_none.2 (Nat.not_lt.1 h)]
  case lda v => exact exec_cases_of_intoAccumulator (f := fun _ b => b) (.lda v) rfl rfl rfl
  case add v => exact exec_cases_of_intoAccumulator (.add v) rfl rfl rfl
  case or v => exact exec_cases_of_intoAccumulator (.or v) rfl rfl rfl
  case and v => exact exec_cases_of_intoAccumulator (.and v) rfl rfl rfl
  all_goals exact .inr ⟨by simp [dataAddress], rfl, rfl⟩

/-- Only STA writes memory. -/
theorem completed_mem (h : ∀ v, i ≠ .sta v) : (completed i s).mem = s.mem := by
  cases i <;> first | exact absurd rfl (h _) | rfl | (simp only [completed]; split <;> rfl)

/-- A byte that is not the target of an STA reads as before. -/
theorem completed_load_other {o : Nat} (h : ∀ v, i = .sta v → o ≠ translateAddr v) :
    (completed i s).mem.load o = s.mem.load o := by
  cases i with
  | sta v =>
    simp only [completed, State.advance_mem, State.setMem_mem, Memory.load, Memory.inb, Memory.lookup_insert_other (h v rfl)]
    rfl
  | _ => rw [completed_mem (by simp)]

/-- Only HLT writes HALT. -/
theorem completed_halt : (completed i s).halt = (s.halt || decide (i = .hlt)) := by
  cases i <;> simp only [completed] <;> first | simp; done | (split <;> simp)

/-- An instruction that completes leaves OOB alone. -/
theorem completed_oob : (completed i s).oob = s.oob := by
  cases i <;> first | rfl | (simp only [completed]; split <;> rfl)

/-- No instruction changes the length of the memory. -/
theorem completed_size : (completed i s).mem.size = s.mem.size := by
  cases i <;> first | rfl | (simp only [completed]; split <;> rfl)

/-- PC after an instruction: past its cells, or a translated address. -/
theorem completed_pc : (completed i s).pc = s.pc + 2 * (if i.opcode.hasOperand then 2 else 1) ∨
    ∃ v, i.operand = some v ∧ (completed i s).pc = translateAddr v := by
  cases i
  case jmp v => exact .inr ⟨v, rfl, rfl⟩
  case jn v | jz v =>
    simp only [completed]
    split
    · exact .inr ⟨v, rfl, rfl⟩
    · exact .inl rfl
  all_goals exact .inl rfl

end Sys2Proof.Machine
end

