-- ==== Sys2Proof/Laws/Disassembler.lean ====
section
/-! SUPPORT. What the disassembler's scan gives for each cell. -/

namespace Sys2Proof.Machine

variable {m : Memory} {n k o : Nat} {mode : ScanMode}

/-- The mode in which a scan that starts in `mode` at offset `o` reads its `k`-th cell. -/
def modeAt (m : Memory) (mode : ScanMode) (o : Nat) : Nat → ScanMode
  | 0 => mode
  | k + 1 => scanNext (modeAt m mode o k) (Memory.lookup (o + 2 * k) m.cells)

theorem modeAt_shift : modeAt m (scanNext mode (Memory.lookup o m.cells)) (o + 2) k = modeAt m mode o (k + 1) := by
  induction k with
  | zero => simp [modeAt]
  | succ k ih => rw [modeAt, ih, show o + 2 + 2 * k = o + 2 * (k + 1) by omega]; rfl

theorem scan_length : (scan m n mode o).length = n := by
  induction n generalizing mode o with
  | zero => rfl
  | succ n ih => simp [scan, ih]

/-- The scan's entry for its `k`-th cell. -/
theorem getElem?_scan (hk : k < n) : (scan m n mode o)[k]? =
    some (o + 2 * k, modeAt m mode o k, scanToken (modeAt m mode o k) (Memory.lookup (o + 2 * k) m.cells)) := by
  induction n generalizing mode o k with
  | zero => omega
  | succ n ih =>
    cases k with
    | zero => simp [scan, modeAt]
    | succ k =>
      simp only [scan, List.getElem?_cons_succ, cellBytes_eq]
      rw [ih (by omega), modeAt_shift, show o + 2 + 2 * k = o + 2 * (k + 1) by omega]

end Sys2Proof.Machine
end

