-- ==== Sys2Proof/Laws/Loader.lean ====
section
/-! SUPPORT. What the loader does. -/

namespace Sys2Proof.Machine

/-- The header check: the buffer begins with the four magic bytes. -/
theorem imageWellFormed_iff {img : List Byte} : imageWellFormed img = true ↔ ∃ rest, img = Config.magic ++ rest := by
  simp only [imageWellFormed, beq_iff_eq]
  constructor
  · intro h; exact ⟨img.drop 4, by rw [← h]; exact (List.take_append_drop 4 img).symm⟩
  · rintro ⟨r, rfl⟩; rfl

/-- A load answers a state exactly when the header check passes, and then the reset state of the image. -/
theorem load_eq_next {img : List Byte} {t : State} :
    load img = .next t ↔ imageWellFormed img = true ∧ t = State.ofImage img := by
  unfold load
  cases h : imageWellFormed img
  · simp
  · simp only [if_true, Host.Outcome.next.injEq, true_and]; exact eq_comm

end Sys2Proof.Machine
end

