-- ==== Sys2Proof/Laws/PerInstr.lean ====
section
/-! SUPPORT. Statements made for each instruction in turn. -/

namespace Sys2Proof.Laws

/-- An instruction is encoded in as many bytes as its opcode byte alone says, two for each cell (30_encoding.md R77). -/
def EncodingLength.Statement (i : Instr) : Prop :=
  ∀ p q : Byte, (encodeWith p q i).length = 2 * lengthCells i.opcode.byte

theorem EncodingLength.nop : EncodingLength.Statement .nop := fun _ _ => rfl
theorem EncodingLength.sta (v : Byte) : EncodingLength.Statement (.sta v) := fun _ _ => rfl
theorem EncodingLength.lda (v : Byte) : EncodingLength.Statement (.lda v) := fun _ _ => rfl
theorem EncodingLength.add (v : Byte) : EncodingLength.Statement (.add v) := fun _ _ => rfl
theorem EncodingLength.or (v : Byte) : EncodingLength.Statement (.or v) := fun _ _ => rfl
theorem EncodingLength.and (v : Byte) : EncodingLength.Statement (.and v) := fun _ _ => rfl
theorem EncodingLength.not (v : Byte) : EncodingLength.Statement (.not v) := fun _ _ => rfl
theorem EncodingLength.jmp (v : Byte) : EncodingLength.Statement (.jmp v) := fun _ _ => rfl
theorem EncodingLength.jn (v : Byte) : EncodingLength.Statement (.jn v) := fun _ _ => rfl
theorem EncodingLength.jz (v : Byte) : EncodingLength.Statement (.jz v) := fun _ _ => rfl
theorem EncodingLength.hlt : EncodingLength.Statement .hlt := fun _ _ => rfl

end Sys2Proof.Laws
end

