-- ==== Sys2Proof/Laws/Step.lean ====
section
/-! SUPPORT. What the fetch and a step can do, said once, and the induction over a run. -/

namespace Sys2Proof.Machine

variable {s t : State} {i : Instr} {op v : Byte} {ph : Phase} {o k : Nat}

/-- The fetch finds an instruction exactly when its opcode byte and, in format A, its operand byte exist. -/
theorem fetch_eq_instr : fetch s = .instr i ↔ ∃ op o, s.mem.load s.pc = some op ∧ decodeOpcode op = some o ∧
    ((∃ j, o.format = .z j ∧ i = j) ∨
      ∃ mk v, o.format = .a mk ∧ s.mem.load (s.pc + 2) = some v ∧ i = mk v) := by
  simp only [fetch, cellBytes_eq]
  cases h1 : s.mem.load s.pc with
  | none => simp
  | some op =>
    cases h2 : decodeOpcode op with
    | none => simp [h2]
    | some o =>
      cases h3 : o.format with
      | z j => simp [h2, h3, eq_comm]
      | a mk => cases h4 : s.mem.load (s.pc + 2) <;> simp [h2, h3, eq_comm]

/-- The fetch finds an unknown byte exactly when the opcode byte exists and is none of the 11. -/
theorem fetch_eq_unknown : fetch s = .unknown op ↔ s.mem.load s.pc = some op ∧ decodeOpcode op = none := by
  simp only [fetch, cellBytes_eq]
  cases h1 : s.mem.load s.pc with
  | none => simp
  | some op' =>
    cases h2 : decodeOpcode op' with
    | none =>
      simp only [h2, Fetched.unknown.injEq, Option.some.injEq]
      exact ⟨fun h => ⟨h, h ▸ h2⟩, And.left⟩
    | some o =>
      refine iff_of_false ?_ (by rintro ⟨h, h'⟩; cases h; simp [h2] at h')
      simp only [h2]
      cases h3 : o.format with
      | z j => simp
      | a mk => cases h4 : s.mem.load (s.pc + 2) <;> simp

/-- The fetch fails exactly when the opcode byte does not exist, or the operand byte of a format A opcode does not. -/
theorem fetch_eq_outOfBounds : fetch s = .outOfBounds ph o ↔
    (ph = .fetch ∧ o = s.pc ∧ s.mem.size ≤ s.pc) ∨
    (ph = .operand ∧ o = s.pc + 2 ∧ s.mem.size ≤ s.pc + 2 ∧
      ∃ op c, s.mem.load s.pc = some op ∧ decodeOpcode op = some c ∧ c.hasOperand = true) := by
  simp only [fetch, cellBytes_eq]
  cases h1 : s.mem.load s.pc with
  | none =>
    have h := Memory.load_eq_none.1 h1
    simp only [Fetched.outOfBounds.injEq, h, and_true, reduceCtorEq, false_and, exists_false, and_false, or_false]
    exact and_congr eq_comm eq_comm
  | some op =>
    have hlt := (Memory.load_eq_some.1 h1).1
    have hf : ¬ s.mem.size ≤ s.pc := by omega
    cases h2 : decodeOpcode op with
    | none => simp [h2, hf]
    | some c =>
      cases h3 : c.format with
      | z j => simp [h2, h3, hf, Opcode.hasOperand]
      | a mk =>
        have hc : c.hasOperand = true := by simp [Opcode.hasOperand, h3]
        cases h4 : s.mem.load (s.pc + 2) with
        | none =>
          have h := Memory.load_eq_none.1 h4
          simp only [h2, h3, Fetched.outOfBounds.injEq, hf, and_false, false_or]
          constructor
          · rintro ⟨rfl, rfl⟩; exact ⟨rfl, rfl, h, op, c, rfl, h2, hc⟩
          · rintro ⟨rfl, rfl, -⟩; exact ⟨rfl, rfl⟩
        | some v =>
          have := (Memory.load_eq_some.1 h4).1
          have h : ¬ s.mem.size ≤ s.pc + 2 := by omega
          simp [h2, h3, hf, h]

/-- Everything a step can do. -/
theorem step_cases (s : State) :
    (s.terminal = true ∧ step s = .next s ∧ stepEvent s = .noOp) ∨
    (s.terminal = false ∧ ∃ ph o, fetch s = .outOfBounds ph o ∧ step s = .next (s.raise ph o) ∧
      stepEvent s = .outOfBounds ph o) ∨
    (s.terminal = false ∧ ∃ op, fetch s = .unknown op ∧ step s = .next (s.advance 1) ∧
      stepEvent s = .skipped op s.pc) ∨
    (s.terminal = false ∧ ∃ i, fetch s = .instr i ∧ step s = exec i s ∧ stepEvent s = execEvent i s) := by
  cases h : s.terminal with
  | true => exact .inl ⟨rfl, by simp [step, cycle, h], by simp [stepEvent, cycle, h]⟩
  | false =>
    cases hf : fetch s with
    | outOfBounds ph o =>
      exact .inr (.inl ⟨rfl, ph, o, rfl, by simp [step, cycle, h, hf], by simp [stepEvent, cycle, h, hf]⟩)
    | unknown op => exact .inr (.inr (.inl ⟨rfl, op, rfl, by simp [step, cycle, h, hf], by simp [stepEvent, cycle, h, hf]⟩))
    | instr i => exact .inr (.inr (.inr ⟨rfl, i, rfl, by simp [step, cycle, h, hf], by simp [stepEvent, cycle, h, hf]⟩))

/-- The same, with the instruction's own outcomes told apart: a no-op, an out-of-bounds access of any phase, a skip, or an
instruction that completes. -/
theorem step_outcomes (s : State) :
    (s.terminal = true ∧ step s = .next s ∧ stepEvent s = .noOp) ∨
    (s.terminal = false ∧ ∃ ph o, step s = .next (s.raise ph o) ∧ stepEvent s = .outOfBounds ph o ∧
      (fetch s = .outOfBounds ph o ∨ ∃ i, fetch s = .instr i ∧ ph = .data ∧ dataAddress i = some o ∧ s.mem.size ≤ o)) ∨
    (s.terminal = false ∧ ∃ op, fetch s = .unknown op ∧ step s = .next (s.advance 1) ∧
      stepEvent s = .skipped op s.pc) ∨
    (s.terminal = false ∧ ∃ i, fetch s = .instr i ∧ step s = .next (completed i s).updateFlags ∧
      stepEvent s = .executed i ∧ ∀ a, dataAddress i = some a → a < s.mem.size) := by
  rcases step_cases s with h | ⟨h, ph, o, hf, hs, he⟩ | h | ⟨h, i, hf, hs, he⟩
  · exact .inl h
  · exact .inr (.inl ⟨h, ph, o, hs, he, .inl hf⟩)
  · exact .inr (.inr (.inl h))
  · rcases exec_cases i s with ⟨a, ha, hle, hx, hv⟩ | ⟨ha, hx, hv⟩
    · exact .inr (.inl ⟨h, .data, a, hs.trans hx, he.trans hv, .inr ⟨i, hf, rfl, ha, hle⟩⟩)
    · exact .inr (.inr (.inr ⟨h, i, hf, hs.trans hx, he.trans hv, ha⟩))

/-- The bytes under an instruction that the fetch finds: its opcode byte at PC, its operand byte at PC + 2. -/
theorem bytes_of_fetch (h : fetch s = .instr i) : s.mem.load s.pc = some i.opcode.byte ∧
    ∀ v, i.operand = some v → s.mem.load (s.pc + 2) = some v := by
  obtain ⟨op, o, h1, h2, h3⟩ := fetch_eq_instr.1 h
  have hb := decodeOpcode_eq_some.1 h2
  rcases h3 with ⟨j, hj, rfl⟩ | ⟨mk, v, hj, hv, rfl⟩
  · obtain ⟨e1, e2, -⟩ := format_z hj
    exact ⟨by rw [h1, e1, hb], by simp [e2]⟩
  · obtain ⟨e1, e2, -⟩ := format_a hj v
    exact ⟨by rw [h1, e1, hb], by rw [e2]; rintro w hw; injection hw with hw; rw [hv, hw]⟩

/-- The fetch finds an instruction whose bytes stand at PC. -/
theorem fetch_of_bytes (h : s.mem.load s.pc = some i.opcode.byte)
    (hv : ∀ v, i.operand = some v → s.mem.load (s.pc + 2) = some v) : fetch s = .instr i := by
  refine fetch_eq_instr.2 ⟨_, _, h, decodeOpcode_byte _, ?_⟩
  cases ho : i.operand with
  | none => exact .inl ⟨i, format_of_operand_none ho, rfl⟩
  | some v => obtain ⟨mk, h1, h2⟩ := format_of_operand_some ho; exact .inr ⟨mk, v, h1, hv v ho, h2.symm⟩

/-- On a running state the step runs what the fetch finds. -/
theorem step_of_fetch (hr : s.terminal = false) (h : fetch s = .instr i) :
    step s = exec i s ∧ stepEvent s = execEvent i s := by
  simp [step, stepEvent, cycle, hr, h]

/-- What the next state is, by the event of the step. -/
theorem next_by_event (h : step s = .next t) :
    (stepEvent s = .noOp ∧ s.terminal = true ∧ t = s) ∨
    (∃ ph o, stepEvent s = .outOfBounds ph o ∧ t = s.raise ph o ∧ s.terminal = false) ∨
    (∃ op, stepEvent s = .skipped op s.pc ∧ t = s.advance 1 ∧ s.terminal = false ∧ fetch s = .unknown op) ∨
    (∃ i, stepEvent s = .executed i ∧ t = (completed i s).updateFlags ∧ s.terminal = false ∧ fetch s = .instr i ∧
      ∀ a, dataAddress i = some a → a < s.mem.size) := by
  rcases step_outcomes s with ⟨ht, hs, he⟩ | ⟨hr, ph, o, hs, he, -⟩ | ⟨hr, op, hf, hs, he⟩ | ⟨hr, i, hf, hs, he, ha⟩ <;>
    rw [hs] at h <;> injection h with h <;> subst h
  · exact .inl ⟨he, ht, rfl⟩
  · exact .inr (.inl ⟨_, _, he, rfl, hr⟩)
  · exact .inr (.inr (.inl ⟨_, he, rfl, hr, hf⟩))
  · exact .inr (.inr (.inr ⟨_, he, rfl, hr, hf, ha⟩))

theorem stepState_of_step (h : step s = .next t) : stepState s = t := by simp [stepState, h]

theorem step_eq_stepState (s : State) : step s = .next (stepState s) := by
  rcases step_outcomes s with ⟨-, h, -⟩ | ⟨-, _, _, h, -⟩ | ⟨-, _, -, h, -⟩ | ⟨-, _, -, h, -⟩ <;>
    rw [stepState_of_step h, h]

theorem step_eq_next : step s = .next t ↔ stepState s = t := by
  rw [step_eq_stepState]; exact ⟨fun h => by injection h, fun h => by rw [h]⟩

theorem stepState_terminal (h : s.terminal = true) : stepState s = s := by
  rcases step_cases s with ⟨-, hs, -⟩ | ⟨h', -⟩ | ⟨h', -⟩ | ⟨h', -⟩
  · exact stepState_of_step hs
  all_goals simp [h] at h'

theorem stepEvent_terminal (h : s.terminal = true) : stepEvent s = .noOp := by
  rcases step_cases s with ⟨-, -, he⟩ | ⟨h', -⟩ | ⟨h', -⟩ | ⟨h', -⟩
  · exact he
  all_goals simp [h] at h'

theorem runFor_succ (k : Nat) (s : State) : runFor (k + 1) s = stepState (runFor k s) := by
  induction k generalizing s with
  | zero => rfl
  | succ k ih => exact ih (stepState s)

theorem runFor_add (j k : Nat) (s : State) : runFor (j + k) s = runFor k (runFor j s) := by
  induction j generalizing s with
  | zero => rw [Nat.zero_add]; rfl
  | succ j ih => rw [Nat.succ_add]; exact ih (stepState s)

/-- The induction over a run: what every step keeps, every run keeps. -/
theorem runFor_keeps {P : State → Prop} (keep : ∀ s, P s → P (stepState s)) (k : Nat) (h : P s) : P (runFor k s) := by
  induction k generalizing s with
  | zero => exact h
  | succ k ih => exact ih (keep s h)

end Sys2Proof.Machine
end

