-- ==== Sys2Proof/Tests/Slice0.lean ====
section
/-! SUPPORT. The model's own tests. Expected results come from spec/95_test_vectors.md and the rules named; the witnesses at the
end meet the hypotheses of the statements. -/

open Sys2Proof Sys2Proof.Machine Sys2Proof.Forms

namespace Sys2Proof.Tests

/-! Well-formedness: an ill-formed term for each check, refused. -/

theorem test_image_well_formed : imageWellFormed [0x03#8, 0x4E#8, 0x44#8, 0x52#8] = true := by decide
theorem test_image_short_refused : imageWellFormed [0x03#8, 0x4E#8, 0x44#8] = false := by decide
theorem test_image_empty_refused : imageWellFormed [] = false := by decide
theorem test_image_byte0_refused : imageWellFormed [0x04#8, 0x4E#8, 0x44#8, 0x52#8, 0#8] = false := by decide
theorem test_image_lower_case_refused : imageWellFormed [0x03#8, 0x6E#8, 0x64#8, 0x72#8] = false := by decide
theorem test_image_byte3_refused : imageWellFormed [0x03#8, 0x4E#8, 0x44#8, 0x53#8] = false := by decide
theorem test_image_shifted_refused : imageWellFormed [0x4E#8, 0x44#8, 0x52#8, 0x03#8] = false := by decide
theorem test_asm_number_refused : (AsmItem.address .lda (.number 256)).wellFormed = false := by decide
theorem test_asm_mnemonic_refused : (AsmItem.address .not (.number 0)).wellFormed = false := by decide
theorem test_asm_byte_refused : (AsmItem.byte 256).wellFormed = false := by decide
theorem test_asm_item_well_formed : (AsmItem.address .jz (.number 255)).wellFormed = true := by decide

/-! Decoding: each row of the table, its bytes written out from 30_encoding.md R71, R72, R75. -/

theorem test_decode_nop : decode [0b00000000#8, 0#8] = .instr .nop [] := by decide
theorem test_decode_sta : decode [0b00010000#8, 0#8, 0b00000101#8, 0#8] = .instr (.sta 5#8) [] := by decide
theorem test_decode_lda : decode [0b00100000#8, 0#8, 0b00000011#8, 0#8] = .instr (.lda 3#8) [] := by decide
theorem test_decode_add : decode [0b00110000#8, 7#8, 0b11111111#8, 9#8, 1#8] = .instr (.add 255#8) [1#8] := by decide
theorem test_decode_or : decode [0b01000000#8, 0#8, 0b00001010#8, 0#8] = .instr (.or 10#8) [] := by decide
theorem test_decode_and : decode [0b01010000#8, 0#8, 0b00001100#8, 0#8] = .instr (.and 12#8) [] := by decide
theorem test_decode_not : decode [0b01100000#8, 0#8, 0b00000111#8, 0#8] = .instr (.not 7#8) [] := by decide
theorem test_decode_jmp : decode [0b10000000#8, 0#8, 0b11001000#8, 0#8] = .instr (.jmp 200#8) [] := by decide
theorem test_decode_jn : decode [0b10010000#8, 0#8, 0b00001000#8, 0#8] = .instr (.jn 8#8) [] := by decide
theorem test_decode_jz : decode [0b10100000#8, 0#8, 0b00010100#8, 0#8] = .instr (.jz 20#8) [] := by decide
theorem test_decode_hlt : decode [0b11110000#8] = .instr .hlt [] := by decide
theorem test_decode_0x11_unknown : decode [0x11#8, 0#8, 5#8, 0#8] = .rejected (.unknownOpcode 0x11#8) := by decide
theorem test_decode_0x70_unknown : decode [0x70#8] = .rejected (.unknownOpcode 0x70#8) := by decide
theorem test_decode_not_needs_operand : decode [0x60#8, 0#8] = .rejected (.noOperand .not) := by decide
theorem test_encode_sta : encode (.sta 5#8) = [0x10#8, 0x00#8, 0x05#8, 0x00#8] := by decide
theorem test_encode_hlt : encode .hlt = [0xF0#8, 0x00#8] := by decide
theorem test_table_word_lda : decodeTableWord 32 0x00FF0020 = some (.lda 255#8) := by decide
theorem test_table_word_nop : decodeTableWord 16 0 = some .nop := by decide
theorem test_table_word_unknown : decodeTableWord 16 0x21 = none := by decide

/-- The start state of 95_test_vectors.md section 2.3: cell 0 the opcode, cell 1 `v`, cell 10 `b`, L = 28. -/
def vec (op v ac b : Byte) : State :=
  { State.ofImage ([0x03#8, 0x4E#8, 0x44#8, 0x52#8, op, 0#8, v, 0#8] ++ List.replicate 16 0#8 ++ [b, 0#8, 0#8, 0#8]) with
    ac := ac, z := decide (ac.toNat = 0), n := decide (128 ≤ ac.toNat) }

/-- AC, Z, N and PC after one step: the columns of the vector table. -/
def after (s : State) : Nat × Bool × Bool × Nat :=
  ((stepState s).ac.toNat, (stepState s).z, (stepState s).n, (stepState s).pc)

theorem test_nop : after (vec 0x00#8 0#8 7#8 0#8) = (7, false, false, 6) := by decide
theorem test_nop_event : stepEvent (vec 0x00#8 0#8 7#8 0#8) = .executed .nop := by decide
theorem test_sta : (stepState (vec 0x10#8 10#8 42#8 0#8)).mem.load 24 = some 42#8 ∧
    (stepState (vec 0x10#8 10#8 42#8 0#8)).mem.load 25 = some 0#8 ∧ after (vec 0x10#8 10#8 42#8 0#8) = (42, false, false, 8) := by decide
theorem test_sta_out_of_bounds : stepEvent (vec 0x10#8 200#8 42#8 0#8) = .outOfBounds .data 404 ∧
    after (vec 0x10#8 200#8 42#8 0#8) = (42, false, false, 4) := by decide
theorem test_lda : after (vec 0x20#8 10#8 0#8 200#8) = (200, false, true, 8) := by decide
theorem test_lda_at_the_end : after (vec 0x20#8 11#8 0#8 0#8) = (0, true, false, 8) ∧
    stepEvent (vec 0x20#8 12#8 0#8 0#8) = .outOfBounds .data 28 := by decide
theorem test_add_exact_cap : after (vec 0x30#8 10#8 200#8 55#8) = (255, false, true, 8) := by decide
theorem test_add_saturates : after (vec 0x30#8 10#8 128#8 128#8) = (255, false, true, 8) ∧
    after (vec 0x30#8 10#8 100#8 100#8) = (200, false, true, 8) := by decide
theorem test_or : after (vec 0x40#8 10#8 15#8 128#8) = (143, false, true, 8) := by decide
theorem test_and : after (vec 0x50#8 10#8 0xAA#8 0x55#8) = (0, true, false, 8) ∧
    after (vec 0x50#8 10#8 255#8 15#8) = (15, false, false, 8) := by decide
theorem test_not : after (vec 0x60#8 7#8 128#8 0#8) = (127, false, false, 8) := by decide
theorem test_not_operand_not_tested : stepEvent (vec 0x60#8 255#8 5#8 0#8) = .executed (.not 255#8) ∧
    after (vec 0x60#8 255#8 5#8 0#8) = (250, false, true, 8) := by decide
theorem test_jmp : after (vec 0x80#8 5#8 0#8 0#8) = (0, true, false, 14) := by decide
theorem test_jmp_beyond : stepEvent (vec 0x80#8 200#8 0#8 0#8) = .executed (.jmp 200#8) ∧
    after (vec 0x80#8 200#8 0#8 0#8) = (0, true, false, 404) := by decide
theorem test_jn_taken : after (vec 0x90#8 8#8 200#8 0#8) = (200, false, true, 20) := by decide
theorem test_jn_not_taken : after (vec 0x90#8 8#8 127#8 0#8) = (127, false, false, 8) := by decide
theorem test_jz_taken : after (vec 0xA0#8 6#8 0#8 0#8) = (0, true, false, 16) := by decide
theorem test_jz_not_taken : after (vec 0xA0#8 6#8 1#8 0#8) = (1, false, false, 8) := by decide
theorem test_hlt : after (vec 0xF0#8 0#8 33#8 0#8) = (33, false, false, 6) ∧
    (stepState (vec 0xF0#8 0#8 33#8 0#8)).halt = true := by decide
theorem test_hlt_then_noop : stepEvent (stepState (vec 0xF0#8 0#8 33#8 0#8)) = .noOp := by decide

/-! The step's other outcomes (95_test_vectors.md sections 2.3 and 2.4). -/

/-- A loaded image: the header, then the given bytes. -/
def img (body : List Byte) : State := State.ofImage ([0x03#8, 0x4E#8, 0x44#8, 0x52#8] ++ body)

theorem test_unknown_skipped : stepEvent (vec 0x11#8 0#8 5#8 0#8) = .skipped 17#8 4 ∧
    after (vec 0x11#8 0#8 5#8 0#8) = (5, false, false, 6) := by decide
theorem test_no_cell : stepEvent (img []) = .outOfBounds .fetch 4 ∧ (stepState (img [])).pc = 4 := by decide
theorem test_not_in_last_cell : stepEvent (img [0x60#8, 0#8]) = .outOfBounds .operand 6 ∧
    (stepState (img [0x60#8, 0#8])).oob = some ⟨.operand, 6⟩ ∧ (stepState (img [0x60#8, 0#8])).pc = 4 := by decide
theorem test_lda_out_of_bounds : stepEvent (img [0x20#8, 0#8, 100#8, 0#8]) = .outOfBounds .data 204 := by decide
theorem test_odd_buffer : (stepState (img [0x20#8, 0#8, 0#8])).ac = 32#8 ∧
    stepEvent (stepState (img [0x20#8, 0#8, 0#8])) = .outOfBounds .fetch 8 := by decide
theorem test_hlt_in_last_cell : (stepState (img [0xF0#8])).halt = true ∧ (stepState (img [0xF0#8])).pc = 6 := by decide
theorem test_self_modifying_store : stepState (img [0x10#8, 0#8, 2#8, 0#8, 0xF0#8, 0#8]) =
    { img [0x10#8, 0#8, 2#8, 0#8, 0#8, 0#8] with pc := 8 } := by decide
theorem test_run_of_the_source_example : ((runToHalt 10 (img [0#8, 0#8, 48#8, 0#8, 3#8, 0#8, 33#8, 0#8, 240#8, 0#8])).map
    fun s => (s.ac, s.z, s.n, s.halt, s.pc, s.vpc)) = some (33#8, false, false, true, 14, 5) := by decide

/-! Reset, the loader and the placing of a word. -/

theorem test_reset_memory_canonical : State.reset.mem.wf = true := by decide
theorem test_reset_is_a_load : State.ofImage [0x03#8, 0x4E#8, 0x44#8, 0x52#8] = State.reset := by decide
theorem test_fetch_word_runs : stepEvent (State.reset.withFetchWord 32 0x00FF0080) = .executed (.jmp 255#8) := by decide
theorem test_fetch_word_one_cell : stepEvent (State.reset.withFetchWord 16 0xF0) = .executed .hlt := by decide
theorem test_store_keeps_the_canonical_form : State.reset.mem.store 0 0#8 =
    some { size := 4, cells := [(1, 0x4E#8), (2, 0x44#8), (3, 0x52#8)] } := by decide

/-! The disassembler and the observations (95_test_vectors.md section 2.5). -/

theorem test_disassemble_source_example :
    disassemble (img [0#8, 0#8, 48#8, 0#8, 3#8, 0#8, 33#8, 0#8, 240#8, 0#8]).mem = ["NOP", "ADD", "3", "33", "HLT"] := by decide
theorem test_disassemble_not_last : disassemble (img [0x60#8, 0#8]).mem = ["NOT"] := by decide
theorem test_disassemble_operand_opcode : disassemble (img [0x10#8, 0#8, 0xF0#8, 0#8, 0xF0#8, 0#8]).mem = ["STA", "240", "HLT"] := by decide
theorem test_disassemble_no_cell : disassemble (img []).mem = [] := by decide
theorem test_status : (stepState (img [])).status = .outOfBounds .fetch 4 ∧ (stepState (img [0xF0#8])).status = .halted ∧
    (img []).status = .running := by decide
theorem test_event_codes : [StepEvent.noOp, .executed .nop, .skipped 1#8 4, .outOfBounds .fetch 4].map eventCode = [0, 1, 2, 3] ∧
    [Phase.fetch, .operand, .data].map phaseCode = [0, 1, 2] := by decide

/-! The assembler (30_encoding.md R79; programs P2 and P9 of 95_test_vectors.md). -/

theorem test_parse_label_line : parseLine "loop:  LDA cnt" = some ⟨some "loop", .address .lda (.label "cnt")⟩ := by decide
theorem test_parse_byte_line : parseLine "cnt:   .byte 3" = some ⟨some "cnt", .byte 3⟩ := by decide
theorem test_parse_not_takes_no_address : parseLine "NOT 7" = none := by decide
theorem test_parse_number : parseLine "JMP 0" = some ⟨none, .address .jmp (.number 0)⟩ := by decide
theorem test_assemble_source_example : (parseSource ["NOP", "ADD 3", ".byte 33", "HLT"]).map assemble =
    some (.image [0x03#8, 0x4E#8, 0x44#8, 0x52#8, 0#8, 0#8, 0x30#8, 0#8, 3#8, 0#8, 0x21#8, 0#8, 0xF0#8, 0#8]) := by decide
theorem test_assemble_label : assemble [⟨none, .not⟩, ⟨none, .address .jmp (.label "end")⟩, ⟨some "end", .hlt⟩] =
    .image [0x03#8, 0x4E#8, 0x44#8, 0x52#8, 0x60#8, 0#8, 0#8, 0#8, 0x80#8, 0#8, 4#8, 0#8, 0xF0#8, 0#8] := by decide
theorem test_assemble_undefined_label : assemble [⟨none, .address .jmp (.label "x")⟩] = .rejected (.undefinedLabel "x") := by decide
theorem test_assemble_label_twice : assemble [⟨some "x", .nop⟩, ⟨some "x", .nop⟩] = .rejected .labelDefinedTwice := by decide

/-! Witnesses: for each statement with hypotheses, a concrete state and operands that meet all of them together, at boundary
values where a clause has a range. -/

theorem witness_OpcodeByteIsComparedWhole : ∀ b ∈ [0x01#8, 0x11#8, 0x7F#8, 0xF1#8, 0xFF#8],
    b ∉ [0x00#8, 0x10#8, 0x20#8, 0x30#8, 0x40#8, 0x50#8, 0x60#8, 0x80#8, 0x90#8, 0xA0#8, 0xF0#8] := by decide

theorem witness_DecodeIsTheInverseOfEncode :
    [0x20#8, 1#8, 3#8, 2#8, 9#8] = encodeWith 1#8 2#8 (.lda 3#8) ++ [9#8] ∧
    [0x20#8, 1#8, 3#8] = (encodeWith 1#8 2#8 (.lda 3#8)).dropLast := by decide

theorem witness_EncodedProgramIsFetchedBack :
    [Instr.nop, .lda 255#8, .hlt][0]? = some .nop ∧ [Instr.nop, .lda 255#8, .hlt][2]? = some .hlt := by decide

theorem witness_PlacedInstructionRunsNext : State.reset.mem.wf = true ∧ (vec 0x10#8 10#8 42#8 0#8).mem.wf = true := by decide

theorem witness_TranslateIsOntoTheCells : (4 ≤ 4 ∧ 4 ≤ 514 ∧ 4 % 2 = 0) ∧ (4 ≤ 514 ∧ 514 ≤ 514 ∧ 514 % 2 = 0) ∧
    translateAddr 255#8 = translateAddr 255#8 := by decide

theorem witness_ValidCellsOfABuffer : (img []).mem.size = 4 ∧ (5 ≤ (img [0xF0#8]).mem.size ∧ (img [0xF0#8]).mem.size % 2 = 1) := by
  decide

theorem witness_StoreThenLoad : State.reset.mem.wf = true ∧ 3 < State.reset.mem.size := by decide

theorem witness_CanonicalMemoryIsDetermined : State.reset.mem.wf = true ∧ (img []).mem.wf = true ∧
    State.reset.mem.size = (img []).mem.size ∧ ∀ o, State.reset.mem.load o = (img []).mem.load o :=
  ⟨by decide, by decide, by decide, fun _ => rfl⟩

theorem witness_BufferIsHeldExactly : (vec 0x30#8 10#8 7#8 9#8).mem.wf = true := by decide

theorem witness_LoadRefusesEveryOtherPrefix :
    (¬ ∃ rest, ([] : List Byte) = [0x03#8, 0x4E#8, 0x44#8, 0x52#8] ++ rest) ∧
    (¬ ∃ rest, [0x03#8, 0x4E#8, 0x44#8] = [0x03#8, 0x4E#8, 0x44#8, 0x52#8] ++ rest) ∧
    (¬ ∃ rest, [0x03#8, 0x6E#8, 0x64#8, 0x72#8] = [0x03#8, 0x4E#8, 0x44#8, 0x52#8] ++ rest) := by
  refine ⟨?_, ?_, ?_⟩ <;> rintro ⟨rest, h⟩ <;> simp at h

theorem witness_InvariantHoldsAfterEveryLoad : load [0x03#8, 0x4E#8, 0x44#8, 0x52#8, 0xF0#8] = .next (img [0xF0#8]) := rfl

theorem witness_ImageWithNoCellEndsAtTheFirstFetch : load [0x03#8, 0x4E#8, 0x44#8, 0x52#8] = .next (img []) ∧
    [0x03#8, 0x4E#8, 0x44#8, 0x52#8].length = 4 := ⟨rfl, rfl⟩

theorem witness_StepRunsTheDecodedInstruction :
    ((vec 0x30#8 10#8 7#8 9#8).Running ∧
      decode ((vec 0x30#8 10#8 7#8 9#8).mem.window (vec 0x30#8 10#8 7#8 9#8).pc 4) = .instr (.add 10#8) []) ∧
    ((img [0xF0#8]).Running ∧ decode ((img [0xF0#8]).mem.window (img [0xF0#8]).pc 4) = .instr .hlt []) := by decide

theorem witness_TerminalStateStaysAsItIs : (stepState (img [0xF0#8])).halt = true ∧ (stepState (img [])).oob ≠ none := by decide

theorem witness_UnknownOpcodeIsSkipped : (img [0x11#8]).Running ∧ (img [0x11#8]).mem.load (img [0x11#8]).pc = some 0x11#8 ∧
    decodeOpcode 0x11#8 = none := by decide

theorem witness_OutOfBoundsCommitsOnlyTheStatus : stepEvent (img []) = .outOfBounds .fetch 4 ∧
    stepEvent (img [0x60#8, 0#8]) = .outOfBounds .operand 6 ∧
    stepEvent (vec 0x20#8 12#8 0#8 0#8) = .outOfBounds .data 28 := by decide

theorem witness_FlagsAreRecomputedFromAc :
    (step (vec 0x30#8 10#8 0#8 0#8) = .next (stepState (vec 0x30#8 10#8 0#8 0#8)) ∧
      stepEvent (vec 0x30#8 10#8 0#8 0#8) = .executed (.add 10#8)) ∧
    (step (img [0x11#8]) = .next (stepState (img [0x11#8])) ∧ stepEvent (img [0x11#8]) = .skipped 0x11#8 4) ∧
    (step (img []) = .next (stepState (img [])) ∧ stepEvent (img []) = .outOfBounds .fetch 4) :=
  ⟨⟨rfl, by decide⟩, ⟨rfl, by decide⟩, ⟨rfl, by decide⟩⟩

theorem witness_PcAfterAStepByCase :
    stepEvent (vec 0x00#8 0#8 7#8 0#8) = .executed .nop ∧ stepEvent (vec 0xF0#8 0#8 7#8 0#8) = .executed .hlt ∧
    stepEvent (vec 0x10#8 11#8 7#8 0#8) = .executed (.sta 11#8) ∧ stepEvent (vec 0x80#8 255#8 7#8 0#8) = .executed (.jmp 255#8) ∧
    (stepEvent (vec 0x90#8 0#8 128#8 0#8) = .executed (.jn 0#8) ∧ (vec 0x90#8 0#8 128#8 0#8).n = true) ∧
    (stepEvent (vec 0xA0#8 0#8 0#8 0#8) = .executed (.jz 0#8) ∧ (vec 0xA0#8 0#8 0#8 0#8).z = true) ∧
    stepEvent (img [0x11#8]) = .skipped 0x11#8 4 ∧ stepEvent (img []) = .outOfBounds .fetch 4 ∧
    stepEvent (stepState (img [])) = .noOp := by decide

theorem witness_OnlyFiveInstructionsWriteAc :
    step (vec 0x60#8 0#8 7#8 0#8) = .next (stepState (vec 0x60#8 0#8 7#8 0#8)) ∧
    (stepState (vec 0x60#8 0#8 7#8 0#8)).ac ≠ (vec 0x60#8 0#8 7#8 0#8).ac := ⟨rfl, by decide⟩

theorem witness_HaltIsSetByHltAlone : step (img [0xF0#8]) = .next (stepState (img [0xF0#8])) ∧
    load [0x03#8, 0x4E#8, 0x44#8, 0x52#8] = .next (img []) ∧ (stepState (img [0xF0#8])).halt = true := ⟨rfl, rfl, by decide⟩

theorem witness_OobRecordsTheDetectedAccess : step (img []) = .next (stepState (img [])) ∧
    (stepState (img [])).oob = some ⟨.fetch, 4⟩ := ⟨rfl, by decide⟩

theorem witness_OnlyStaWritesMemory : load [0x03#8, 0x4E#8, 0x44#8, 0x52#8] = .next (img []) ∧
    (step (vec 0x10#8 0#8 7#8 0#8) = .next (stepState (vec 0x10#8 0#8 7#8 0#8)) ∧
      stepEvent (vec 0x10#8 0#8 7#8 0#8) = .executed (.sta 0#8) ∧ 5 ≠ 4 + 2 * (0#8 : Byte).toNat) ∧
    (∀ v, stepEvent (vec 0x00#8 0#8 7#8 0#8) ≠ .executed (.sta v)) ∧ (3 < 4 ∨ 3 % 2 = 1) ∧ (5 < 4 ∨ 5 % 2 = 1) :=
  ⟨rfl, ⟨rfl, by decide, by decide⟩, (fun v h => by rw [test_nop_event] at h; cases h),
    by decide, by decide⟩

theorem witness_CellsBeyond255KeepTheirBytes : 256 ≤ 256 ∧ (⟨518, [(516, 9#8)]⟩ : Memory).load (4 + 2 * 256) = some 9#8 := by decide

theorem witness_EveryReadSeesTheLatestStore : (vec 0x10#8 11#8 7#8 0#8).mem.wf = true ∧
    lastStore 26 1 (vec 0x10#8 11#8 7#8 0#8) = some 7#8 := by decide

theorem witness_StoreIsSeenByTheNextFetch :
    (vec 0x10#8 2#8 0x11#8 0#8).mem.wf = true ∧ step (vec 0x10#8 2#8 0x11#8 0#8) = .next (stepState (vec 0x10#8 2#8 0x11#8 0#8)) ∧
    stepEvent (vec 0x10#8 2#8 0x11#8 0#8) = .executed (.sta 2#8) ∧
    (stepState (vec 0x10#8 2#8 0x11#8 0#8)).pc = 4 + 2 * (2#8 : Byte).toNat ∧ decodeOpcode 0x11#8 = none ∧
    stepEvent (vec 0x10#8 2#8 0xF0#8 0#8) = .executed (.sta 2#8) :=
  ⟨by decide, rfl, by decide, by decide, by decide, by decide⟩

theorem witness_PaddingNeverAffectsExecution : (img [0x60#8, 0#8, 7#8]).mem.wf = true ∧ (img [0x60#8, 9#8, 7#8]).mem.wf = true ∧
    (img [0x60#8, 0#8, 7#8]).PcInv ∧ AgreeOnCells (img [0x60#8, 0#8, 7#8]) (img [0x60#8, 9#8, 7#8]) := by
  refine ⟨by decide, by decide, ⟨⟨0, rfl⟩, by decide⟩, ⟨rfl, fun k => ?_, rfl, rfl, rfl, rfl, rfl, rfl⟩⟩
  match k with
  | 0 => decide
  | 1 => decide
  | k + 2 => rw [Memory.load_eq_none.2, Memory.load_eq_none.2] <;> (simp only [img, State.ofImage, Memory.ofBytes]; simp; omega)

/-- The invariant of a loaded image whose program stores. -/
theorem witness_EveryStepKeepsTheInvariant : (img [0x10#8, 0#8, 0#8, 0#8]).Inv ∧
    step (img [0x10#8, 0#8, 0#8, 0#8]) = .next (stepState (img [0x10#8, 0#8, 0#8, 0#8])) := by
  refine ⟨⟨⟨⟨0, rfl⟩, by decide⟩, ⟨by decide, by decide⟩, ⟨by decide, fun o ho => ?_⟩, ?_⟩, rfl⟩
  · match o, ho with
    | 0, _ => decide
    | 1, _ => decide
    | 2, _ => decide
    | 3, _ => decide
  · constructor <;> simp [img, State.ofImage]

theorem witness_RunToHaltGivesTheFirstTerminalState : (stepState (img [0xF0#8])).terminal = true := by decide

theorem witness_JumpBeyondTheBufferEndsAtTheNextFetch :
    ((vec 0x80#8 12#8 0#8 0#8).Running ∧ fetch (vec 0x80#8 12#8 0#8 0#8) = .instr (.jmp 12#8) ∧
      (vec 0x80#8 12#8 0#8 0#8).mem.size ≤ 4 + 2 * (12#8 : Byte).toNat) ∧
    (fetch (vec 0x90#8 12#8 128#8 0#8) = .instr (.jn 12#8) ∧ (vec 0x90#8 12#8 128#8 0#8).n = true) ∧
    (fetch (vec 0xA0#8 12#8 0#8 0#8) = .instr (.jz 12#8) ∧ (vec 0xA0#8 12#8 0#8 0#8).z = true) ∧
    step (vec 0x80#8 12#8 0#8 0#8) = .next (stepState (vec 0x80#8 12#8 0#8 0#8)) :=
  ⟨by decide, by decide, by decide, rfl⟩

/-- The hypotheses of `FetchTested`. -/
theorem witness_FetchTested : (img []).Running ∧ (img []).mem.load (img []).pc = none := by decide

/-- The hypotheses of `TwoCells`, `DataTested` and `NoDataTest` for one opcode byte: a state whose operand byte is missing, one
whose data address is the last in the buffer, and one whose data address is the first beyond it. -/
def OperandFormsMet (op : Byte) : Prop :=
  ((img [op, 0#8]).Running ∧ (img [op, 0#8]).mem.load (img [op, 0#8]).pc = some op ∧
    (img [op, 0#8]).mem.load ((img [op, 0#8]).pc + 2) = none) ∧
  ((vec op 11#8 7#8 0#8).Running ∧ (vec op 11#8 7#8 0#8).mem.load (vec op 11#8 7#8 0#8).pc = some op ∧
    (vec op 11#8 7#8 0#8).mem.load ((vec op 11#8 7#8 0#8).pc + 2) = some 11#8 ∧
    (vec op 11#8 7#8 0#8).mem.load (4 + 2 * (11#8 : Byte).toNat) = some 0#8) ∧
  ((vec op 12#8 7#8 0#8).mem.load (vec op 12#8 7#8 0#8).pc = some op ∧
    (vec op 12#8 7#8 0#8).mem.load ((vec op 12#8 7#8 0#8).pc + 2) = some 12#8 ∧
    (vec op 12#8 7#8 0#8).mem.load (4 + 2 * (12#8 : Byte).toNat) = none)

theorem witness_NopOnlyAdvances : (img [0x00#8]).Running ∧ (img [0x00#8]).mem.load (img [0x00#8]).pc = some 0x00#8 := by decide
theorem witness_StaStoresAc : OperandFormsMet 0x10#8 ∧ 4 + 2 * (11#8 : Byte).toNat < (vec 0x10#8 11#8 7#8 0#8).mem.size ∧
    (vec 0x10#8 12#8 7#8 0#8).mem.size ≤ 4 + 2 * (12#8 : Byte).toNat ∧ (vec 0x10#8 11#8 7#8 0#8).mem.wf = true := by
  unfold OperandFormsMet; decide
theorem witness_LdaLoadsAc : OperandFormsMet 0x20#8 := by unfold OperandFormsMet; decide
theorem witness_AddSaturates : OperandFormsMet 0x30#8 := by unfold OperandFormsMet; decide
theorem witness_OrIsBitwise : OperandFormsMet 0x40#8 := by unfold OperandFormsMet; decide
theorem witness_AndIsBitwise : OperandFormsMet 0x50#8 := by unfold OperandFormsMet; decide
theorem witness_NotComplements : OperandFormsMet 0x60#8 := by unfold OperandFormsMet; decide
theorem witness_JmpJumps : OperandFormsMet 0x80#8 ∧ (vec 0x80#8 12#8 7#8 0#8).mem.size ≤ 4 + 2 * (12#8 : Byte).toNat ∧
    (vec 0x80#8 0#8 7#8 0#8).pc = 4 + 2 * (0#8 : Byte).toNat ∧ fetch (vec 0x80#8 0#8 7#8 0#8) = .instr (.jmp 0#8) := by
  unfold OperandFormsMet; decide
theorem witness_JnJumpsIfNegative : OperandFormsMet 0x90#8 ∧ (vec 0x90#8 12#8 128#8 0#8).n = true ∧
    (vec 0x90#8 12#8 128#8 0#8).mem.size ≤ 4 + 2 * (12#8 : Byte).toNat ∧ (vec 0x90#8 12#8 127#8 0#8).n = false := by
  unfold OperandFormsMet; decide
theorem witness_JzJumpsIfZero : OperandFormsMet 0xA0#8 ∧ (vec 0xA0#8 12#8 0#8 0#8).z = true ∧
    (vec 0xA0#8 12#8 0#8 0#8).mem.size ≤ 4 + 2 * (12#8 : Byte).toNat ∧ (vec 0xA0#8 12#8 1#8 0#8).z = false := by
  unfold OperandFormsMet; decide
theorem witness_HltHalts : (img [0xF0#8]).Running ∧ (img [0xF0#8]).mem.load (img [0xF0#8]).pc = some 0xF0#8 := by decide

/-- The flags of the start states are those of AC: the hypothesis of the clauses on kept flags. -/
theorem witness_flags_of_the_start_state : (vec 0x90#8 8#8 200#8 0#8).FlagsInv ∧ (vec 0xA0#8 8#8 0#8 0#8).FlagsInv :=
  ⟨⟨by decide, by decide⟩, ⟨by decide, by decide⟩⟩

theorem witness_NotAddNotDecrements :
    (vec 0x60#8 10#8 0#8 1#8).mem.load (4 + 2 * (10#8 : Byte).toNat) = some 1#8 ∧
    ∃ t u w, exec (.not 0#8) (vec 0x60#8 10#8 0#8 1#8) = .next t ∧ exec (.add 10#8) t = .next u ∧ exec (.not 0#8) u = .next w :=
  ⟨by decide, _, _, _, rfl, rfl, rfl⟩

theorem witness_DisassemblerIsTheTwoModeScan : 4 + 2 * 0 < (img [0x60#8]).mem.size ∧ (img [0x60#8]).mem.size ≤ 4 + 2 * 1 := by decide

theorem witness_OneTokenForEachValidCell : 4 ≤ (img [0x60#8]).mem.size ∧ (img []).mem.size = 4 := by decide

theorem witness_ScanAlignsWithTheEngine : (img [0x00#8, 0#8, 0x60#8, 0#8, 7#8, 0#8, 0xF0#8]).pc = 4 ∧
    ∀ j, j < 3 → FallsThrough (runFor j (img [0x00#8, 0#8, 0x60#8, 0#8, 7#8, 0#8, 0xF0#8])) := by
  refine ⟨rfl, fun j hj => ?_⟩
  match j, hj with
  | 0, _ => exact ⟨0x00#8, by decide, by decide, by decide⟩
  | 1, _ => exact ⟨0x60#8, by decide, by decide, by decide⟩
  | 2, _ => exact ⟨0xF0#8, by decide, by decide, by decide⟩

theorem witness_ObservationsReadTheState : (img [0x10#8, 0#8, 0#8, 0#8]).Inv := witness_EveryStepKeepsTheInvariant.1

theorem witness_AssembledSourceLoadsItemByItem :
    assemble [⟨some "a", .nop⟩, ⟨none, .not⟩, ⟨none, .byte 255⟩, ⟨none, .address .jmp (.label "a")⟩,
      ⟨none, .address .lda (.number 255)⟩, ⟨none, .hlt⟩] =
    .image ([0x03#8, 0x4E#8, 0x44#8, 0x52#8] ++ [0#8, 0#8, 0x60#8, 0#8, 0#8, 0#8, 255#8, 0#8, 0x80#8, 0#8, 0#8, 0#8,
      0x20#8, 0#8, 255#8, 0#8, 0xF0#8, 0#8]) := by decide

end Sys2Proof.Tests
end

section
/-! PROOFS. What a step and a run do to HALT and to the memory buffer (10_state.md R29, R32). -/

namespace Sys2Proof.Machine

variable {s t : State} {img : List Byte} {o : Nat}

/-! HALT. -/

/-- HALT after a step: as before, or set by an executed HLT (10_state.md R29). -/
theorem next_halt (h : step s = .next t) : t.halt = true ↔ s.halt = true ∨ stepEvent s = .executed .hlt := by
  rcases next_by_event h with ⟨he, -, rfl⟩ | ⟨ph, a, he, rfl, -⟩ | ⟨op, he, rfl, -⟩ | ⟨i, he, rfl, -⟩
  · simp [he]
  · simp [he]
  · simp [he]
  · simp [he, completed_halt]

theorem load_halt (h : load img = .next t) : t.halt = false := by
  obtain ⟨-, rfl⟩ := load_eq_next.1 h
  rfl

/-- A terminal state is the end: no number of steps leaves it (10_state.md R31). -/
theorem runFor_terminal (h : s.terminal = true) (k : Nat) : runFor k s = s :=
  runFor_keeps (P := (· = s)) (fun _ hu => hu ▸ stepState_terminal (hu ▸ h)) k rfl

/-- Settles O26: HALT of the next state is read off the step's event, and a halted state is terminal. -/
theorem haltIsSetByHltAlone : Obligations.HaltIsSetByHltAlone :=
  ⟨fun _ _ => next_halt, fun _ _ => load_halt, fun _ k h => runFor_terminal (terminal_iff.2 (.inl h)) k⟩

/-! Memory. -/

/-- Everything a step can do to memory: nothing, or the one store of an executed STA (10_state.md R32). -/
theorem next_mem_cases (h : step s = .next t) :
    ((∀ v, stepEvent s ≠ .executed (.sta v)) ∧ t.mem = s.mem) ∨
    ∃ v, stepEvent s = .executed (.sta v) ∧ s.mem.store (translateAddr v) s.ac = some t.mem := by
  rcases next_by_event h with ⟨he, -, rfl⟩ | ⟨ph, a, he, rfl, -⟩ | ⟨op, he, rfl, -⟩ | ⟨i, he, rfl, -, -, ha⟩
  · exact .inl ⟨by simp [he], rfl⟩
  · exact .inl ⟨by simp [he], rfl⟩
  · exact .inl ⟨by simp [he], rfl⟩
  · by_cases hi : ∃ v, i = .sta v
    · obtain ⟨v, rfl⟩ := hi
      exact .inr ⟨v, he, Memory.store_eq_some.2 ⟨ha _ rfl, rfl⟩⟩
    · have hne : ∀ v, i ≠ .sta v := fun v hv => hi ⟨v, hv⟩
      exact .inl ⟨by simpa [he] using hne, completed_mem hne⟩

theorem next_mem_size (h : step s = .next t) : t.mem.size = s.mem.size := by
  rcases next_mem_cases h with ⟨-, hm⟩ | ⟨v, -, hst⟩
  · rw [hm]
  · exact Memory.store_size hst

theorem next_mem_of_not_sta (h : step s = .next t) (hne : ∀ v, stepEvent s ≠ .executed (.sta v)) : t.mem = s.mem := by
  rcases next_mem_cases h with ⟨-, hm⟩ | ⟨v, he, -⟩
  · exact hm
  · exact absurd he (hne v)

/-- An offset that is not the target of an STA the step executes reads as before. -/
theorem next_load_other (h : step s = .next t) (ho : ∀ v, stepEvent s = .executed (.sta v) → o ≠ translateAddr v) :
    t.mem.load o = s.mem.load o := by
  rcases next_mem_cases h with ⟨-, hm⟩ | ⟨v, he, hst⟩
  · rw [hm]
  · exact Memory.store_load_other hst (ho v he)

/-- An offset that is no data address at all reads as before for the whole run. -/
theorem runFor_load_of_no_address (ho : ∀ v, o ≠ translateAddr v) (k : Nat) (s : State) :
    (runFor k s).mem.load o = s.mem.load o :=
  runFor_keeps (P := fun u => u.mem.load o = s.mem.load o)
    (fun u hu => (next_load_other (step_eq_stepState u) fun v _ => ho v).trans hu) k rfl

/-- Header bytes and padding bytes are no data address: an address is even and at least 4 (20_memory.md R53). -/
theorem ne_translateAddr_of_header_or_padding (ho : o < 4 ∨ o % 2 = 1) (v : Byte) : o ≠ translateAddr v := by
  rw [translateAddr_eq]; omega

theorem load_mem (h : load img = .next t) : t.mem = Memory.ofBytes img := by
  obtain ⟨-, rfl⟩ := load_eq_next.1 h
  rfl

/-- Settles O28: a step either keeps the buffer or is one store to a data address, and no header or padding byte has a data
address. -/
theorem onlyStaWritesMemory : Obligations.OnlyStaWritesMemory := by
  refine ⟨fun img t h => ?_, fun s t h => ⟨next_mem_size h, next_mem_of_not_sta h, fun v hv o ho => ?_⟩,
    fun s k o ho => runFor_load_of_no_address (ne_translateAddr_of_header_or_padding ho) k s⟩
  · rw [load_mem h]
    exact ⟨rfl, Memory.load_ofBytes img⟩
  · refine next_load_other h fun w hw => ?_
    rw [hv] at hw
    cases hw
    exact ho

end Sys2Proof.Machine
end

section
/-! PROOFS. The cells of the buffer and the addresses that name them (20_memory.md R52, R53). -/

namespace Sys2Proof.Machine

/-! Addresses. -/

theorem translateAddr_even (v : Byte) : translateAddr v % 2 = 0 := by rw [translateAddr_eq]; omega

/-- Every even offset in the range is the translation of its own cell number (20_memory.md R53). -/
theorem exists_translateAddr_eq {o : Nat} (hlo : 4 ≤ o) (hhi : o ≤ 514) (heven : o % 2 = 0) :
    ∃ v, translateAddr v = o := by
  have hfits : (o - 4) / 2 < 2 ^ 8 := by omega
  refine ⟨BitVec.ofNatLT ((o - 4) / 2) hfits, ?_⟩
  rw [translateAddr_eq, BitVec.toNat_ofNatLT]
  omega

/-- Settles O7: the range, injectivity and surjectivity of `v ↦ 4 + 2v` on bytes, each by its lemma. -/
theorem translateIsOntoTheCells : Obligations.TranslateIsOntoTheCells :=
  ⟨fun v => ⟨translateAddr_eq v, translateAddr_lower v, translateAddr_upper v, translateAddr_even v⟩,
    fun _ _ => translateAddr_inj, fun _ => exists_translateAddr_eq, rfl, rfl, rfl⟩

/-! Cells. -/

namespace Memory

variable {m : Memory} {k : Nat}

/-- An offset reads exactly within the buffer (20_memory.md R54). -/
theorem load_ne_none {o : Nat} : m.load o ≠ none ↔ o < m.size := by rw [Ne, load_eq_none, Nat.not_le]

/-- The count of valid cells counts the cells that start within the buffer, whatever its length (20_memory.md R52). -/
theorem lt_cellCount : k < m.cellCount ↔ 4 + 2 * k < m.size := by rw [cellCount]; omega

/-- A cell that starts at the last byte is the last valid one (20_memory.md R52). -/
theorem cellCount_of_last_byte (h : 4 + 2 * k + 1 = m.size) : m.cellCount = k + 1 := by rw [cellCount]; omega

end Memory

/-- Settles O8: a cell reads, and is counted, exactly when it starts within the buffer; in an odd buffer the last cell's one
byte is the last byte, so its padding offset is `L` and reads nothing. -/
theorem validCellsOfABuffer : Obligations.ValidCellsOfABuffer := by
  refine ⟨fun m k => Memory.load_ne_none, fun m k _ => Memory.lt_cellCount.trans Memory.load_ne_none.symm,
    fun m h hodd => ?_, fun m _ => rfl, fun m h => by rw [Memory.cellCount, h]⟩
  have hend : 4 + 2 * ((m.size - 5) / 2) + 1 = m.size := by omega
  exact ⟨by omega, Memory.load_ne_none.2 (by omega), Memory.load_eq_none.2 hend.ge, Memory.cellCount_of_last_byte hend⟩

end Sys2Proof.Machine
end

section
/-! PROOFS. The opcode byte is compared whole (30_encoding.md R74, R75). -/

namespace Sys2Proof

/-- A byte decodes to none exactly when it is the byte of no opcode (30_encoding.md R74). -/
theorem decodeOpcode_eq_none {b : Byte} : decodeOpcode b = none ↔ ∀ o : Opcode, b ≠ o.byte :=
  Option.eq_none_iff_forall_ne_some.trans (forall_congr' fun _ => not_congr decodeOpcode_eq_some)

/-- The encoder's bytes are among the 11 values of the opcode map (30_encoding.md R75). -/
theorem opcodeByte_mem_opcodeMap (o : Opcode) : o.byte ∈
    [0x00#8, 0x10#8, 0x20#8, 0x30#8, 0x40#8, 0x50#8, 0x60#8, 0x80#8, 0x90#8, 0xA0#8, 0xF0#8] := by
  cases o <;> decide

/-- Settles O1: each byte of the table is its opcode's, which decodes back to it; a byte outside the table is no opcode's. -/
theorem opcodeByteIsComparedWhole : Obligations.OpcodeByteIsComparedWhole := by
  refine ⟨decodeOpcode_byte .nop, decodeOpcode_byte .sta, decodeOpcode_byte .lda, decodeOpcode_byte .add,
    decodeOpcode_byte .or, decodeOpcode_byte .and, decodeOpcode_byte .not, decodeOpcode_byte .jmp, decodeOpcode_byte .jn,
    decodeOpcode_byte .jz, decodeOpcode_byte .hlt, fun b hb => decodeOpcode_eq_none.2 fun o hbyte => hb ?_⟩
  rw [hbyte]
  exact opcodeByte_mem_opcodeMap o

end Sys2Proof
end

section
/-! PROOFS. What a step does on a terminal state and to the flags (40_cycle.md R101, R106). -/

namespace Sys2Proof.Machine

variable {s t : State}

/-! Terminal states. -/

/-- A terminal state reports NoOp and nothing else (40_cycle.md R101). -/
theorem eventsFor_terminal (h : s.terminal = true) (k : Nat) : eventsFor k s = List.replicate k .noOp := by
  induction k with
  | zero => rfl
  | succ k ih => rw [eventsFor, stepEvent_terminal h, stepState_terminal h, ih, List.replicate_succ]

/-- Settles O19: one step keeps a terminal state, so every run from it keeps it and reports NoOp throughout. -/
theorem terminalStateStaysAsItIs : Obligations.TerminalStateStaysAsItIs := by
  intro s hs
  have h : s.terminal = true := terminal_iff.2 hs
  exact ⟨step_eq_next.2 (stepState_terminal h), stepEvent_terminal h,
    fun k => ⟨runFor_terminal h k, eventsFor_terminal h k⟩⟩

/-! Flags. -/

/-- Recomputed flags describe the accumulator (10_state.md R26, R27, R28). -/
theorem State.updateFlags_flagsInv (s : State) : s.updateFlags.FlagsInv := ⟨flagsOf_fst s.ac, flagsOf_snd s.ac⟩

/-- The flags describe the accumulator after every executed instruction, whatever they were before (40_cycle.md R106). -/
theorem next_flagsInv_of_executed {i : Instr} (h : step s = .next t) (hi : stepEvent s = .executed i) : t.FlagsInv := by
  rcases next_by_event h with ⟨he, -⟩ | ⟨_, _, he, -⟩ | ⟨_, he, -⟩ | ⟨j, -, rfl, -⟩
  · simp [hi] at he
  · simp [hi] at he
  · simp [hi] at he
  · exact State.updateFlags_flagsInv (completed j s)

/-- Only an executed instruction touches the accumulator or a flag (40_cycle.md R104, R106, R108). -/
theorem next_ac_flags_of_not_executed (h : step s = .next t) (hne : ∀ i, stepEvent s ≠ .executed i) :
    t.ac = s.ac ∧ t.z = s.z ∧ t.n = s.n := by
  rcases next_by_event h with ⟨-, -, rfl⟩ | ⟨_, _, -, rfl, -⟩ | ⟨_, -, rfl, -⟩ | ⟨i, he, -⟩
  · exact ⟨rfl, rfl, rfl⟩
  · exact ⟨rfl, rfl, rfl⟩
  · exact ⟨rfl, rfl, rfl⟩
  · exact absurd he (hne i)

/-- Settles O23: an executed instruction ends by recomputing the flags from the accumulator; a skip and an OutOfBounds step
are no executed instruction. -/
theorem flagsAreRecomputedFromAc : Obligations.FlagsAreRecomputedFromAc := by
  intro s t h
  refine ⟨fun i hi => ?_, fun op o he => next_ac_flags_of_not_executed h (by simp [he]),
    fun ph o he => next_ac_flags_of_not_executed h (by simp [he])⟩
  obtain ⟨hz, hn⟩ := next_flagsInv_of_executed h hi
  exact ⟨hz, hn⟩

end Sys2Proof.Machine
end

section
/-! PROOFS. How the cells of an instruction are fetched and tested, by its opcode's format (30_encoding.md R70, 40_cycle.md
R103, R105, R107); NOP and LDA (41_transfer.md R130, R132). -/

namespace Sys2Proof.Machine

open Sys2Proof.Forms

variable {s t : State} {i : Instr} {o : Opcode} {mk : Byte → Instr} {v b : Byte}

/-! The fetch. -/

theorem lengthCells_byte (o : Opcode) : lengthCells o.byte = if o.hasOperand then 2 else 1 := by
  simp [lengthCells]

/-- On a running state the step reports the bounds test that fails in its fetch. -/
theorem stepEvent_of_fetch_outOfBounds {ph : Phase} {a : Nat} (hr : s.Running) (h : fetch s = .outOfBounds ph a) :
    stepEvent s = .outOfBounds ph a := by
  simp [stepEvent, cycle, hr, h]

/-- The opcode byte is tested before anything else, whatever instruction would follow (40_cycle.md R103). -/
theorem fetchTested : FetchTested := fun _ hr h =>
  stepEvent_of_fetch_outOfBounds hr (fetch_eq_outOfBounds.2 (.inl ⟨rfl, rfl, Memory.load_eq_none.1 h⟩))

/-- A format Z opcode byte is the whole of its instruction. -/
theorem fetch_of_format_z (ho : o.format = .z i) (h : s.mem.load s.pc = some o.byte) : fetch s = .instr i :=
  fetch_eq_instr.2 ⟨o.byte, o, h, decodeOpcode_byte o, .inl ⟨i, ho, rfl⟩⟩

/-- A format A opcode byte with an operand byte in the next cell. -/
theorem fetch_of_format_a (ho : o.format = .a mk) (h : s.mem.load s.pc = some o.byte)
    (hv : s.mem.load (s.pc + 2) = some v) : fetch s = .instr (mk v) :=
  fetch_eq_instr.2 ⟨o.byte, o, h, decodeOpcode_byte o, .inr ⟨mk, v, ho, hv, rfl⟩⟩

/-! The data test. -/

theorem execEvent_of_no_data (h : dataAddress i = none) : execEvent i s = .executed i := by
  simp [execEvent, h]

theorem execEvent_of_data {a : Nat} (h : dataAddress i = some a) :
    execEvent i s = if a < s.mem.size then .executed i else .outOfBounds .data a := by
  simp [execEvent, h, Memory.inb]

/-- Data is addressed through the operand only (40_cycle.md R107). -/
theorem dataAddress_of_operand_none (h : i.operand = none) : dataAddress i = none := by
  cases i with
  | nop | hlt => rfl
  | _ => cases h

/-! The forms, for every opcode of a format. -/

/-- A format Z instruction takes one cell and is always executed: it has no operand, so no data address. -/
theorem oneCell_of_format (ho : o.format = .z i) : OneCell o.byte i := by
  obtain ⟨-, hop, hhas⟩ := format_z ho
  refine ⟨by simp [lengthCells_byte, hhas], fun s hr h => ?_⟩
  obtain ⟨hs, he⟩ := step_of_fetch hr (fetch_of_format_z ho h)
  exact ⟨hs, he.trans (execEvent_of_no_data (dataAddress_of_operand_none hop))⟩

/-- A format A instruction takes two cells, and its operand byte is tested before it is fetched (40_cycle.md R105). -/
theorem twoCells_of_format (ho : o.format = .a mk) : TwoCells o.byte mk := by
  obtain ⟨-, -, hhas⟩ := format_a ho 0#8
  refine ⟨by simp [lengthCells_byte, hhas], fun s hr h => ⟨fun hv => ?_, fun v hv => ?_⟩⟩
  · exact stepEvent_of_fetch_outOfBounds hr (fetch_eq_outOfBounds.2
      (.inr ⟨rfl, rfl, Memory.load_eq_none.1 hv, o.byte, o, h, decodeOpcode_byte o, hhas⟩))
  · exact (step_of_fetch hr (fetch_of_format_a ho h hv)).1

/-- A format A instruction with a data address has that address tested (40_cycle.md R107). -/
theorem dataTested_of_format (ho : o.format = .a mk) (hd : ∀ v, dataAddress (mk v) = some (translateAddr v)) :
    DataTested o.byte mk := by
  intro s v hr h hv
  have he : stepEvent s = if translateAddr v < s.mem.size then .executed (mk v) else .outOfBounds .data (translateAddr v) :=
    (step_of_fetch hr (fetch_of_format_a ho h hv)).2.trans (execEvent_of_data (hd v))
  refine ⟨fun hnone => ?_, fun b hb => ?_⟩
  · exact he.trans (if_neg (Nat.not_lt.2 (Memory.load_eq_none.1 hnone)))
  · exact he.trans (if_pos (Memory.load_eq_some.1 hb).1)

/-! What an instruction that completes leaves. -/

/-- States whose flags describe the same accumulator have the same flags (10_state.md R28). -/
theorem State.FlagsInv.flags_eq (hs : s.FlagsInv) (ht : t.FlagsInv) (hac : t.ac = s.ac) : t.z = s.z ∧ t.n = s.n :=
  ⟨Bool.eq_iff_iff.2 (by rw [ht.zero, hs.zero, hac]), Bool.eq_iff_iff.2 (by rw [ht.negative, hs.negative, hac])⟩

/-- An instruction that leaves the accumulator alone keeps the flags, although it recomputes them (40_cycle.md R106). -/
theorem flagsKept_updateFlags (hac : t.ac = s.ac) : FlagsKept s t.updateFlags :=
  ⟨t.updateFlags_flagsInv, fun hs => hs.flags_eq t.updateFlags_flagsInv hac⟩

theorem memoryKept_of_eq (h : t.mem = s.mem) : MemoryKept s t := ⟨h, fun _ => by rw [h]⟩

/-- The result and the frame of LDA, ADD, OR and AND where the data byte exists. -/
theorem intoAccumulator_result (f : Byte → Byte → Byte) (h : s.mem.load (translateAddr v) = some b) :
    ∃ t, intoAccumulator f v s = .next t ∧ t.ac = f s.ac b ∧ t.pc = s.pc + 4 ∧ t.FlagsInv ∧ MemoryKept s t ∧
      StatusKept s t :=
  ⟨_, intoAccumulator_some h, rfl, rfl, State.updateFlags_flagsInv _, memoryKept_of_eq rfl, rfl, rfl⟩

/-! The transfers. -/

theorem exec_nop (s : State) : exec .nop s = .next (s.advance 1).updateFlags := rfl

theorem exec_lda (v : Byte) (s : State) : exec (.lda v) s = intoAccumulator (fun _ b => b) v s := rfl

/-- Settles O36: NOP is the fetch advance with the flags recomputed from an AC that stays; its opcode is format Z. -/
theorem nopOnlyAdvances : Obligations.NopOnlyAdvances :=
  ⟨fun s => ⟨_, exec_nop s, rfl, rfl, memoryKept_of_eq rfl, ⟨rfl, rfl⟩, flagsKept_updateFlags rfl⟩,
    oneCell_of_format (o := .nop) rfl, fetchTested⟩

/-- Settles O38: LDA is the accumulator shape that answers the byte read; its opcode is format A and its operand names the
data address. -/
theorem ldaLoadsAc : Obligations.LdaLoadsAc := by
  refine ⟨fun s v b hb => ?_, twoCells_of_format (o := .lda) rfl, dataTested_of_format (o := .lda) rfl fun _ => rfl,
    fetchTested⟩
  rw [exec_lda]
  exact intoAccumulator_result _ hb

end Sys2Proof.Machine
end

section
/-! PROOFS. ADD, OR and AND (42_alu.md R141 to R143): the accumulator shape with each instruction's own result. -/

namespace Sys2Proof.Machine

open Sys2Proof.Forms

variable {o : Opcode} {mk : Byte → Instr}

theorem exec_add (v : Byte) (s : State) : exec (.add v) s = intoAccumulator satAdd v s := rfl

theorem exec_or (v : Byte) (s : State) : exec (.or v) s = intoAccumulator (fun a b => a ||| b) v s := rfl

theorem exec_and (v : Byte) (s : State) : exec (.and v) s = intoAccumulator (fun a b => a &&& b) v s := rfl

/-- Length and bounds tests, in the order of the step, of a format A instruction that accesses data (40_cycle.md R103, R105,
R107). -/
theorem dataInstr_tested (ho : o.format = .a mk) (hd : ∀ v, dataAddress (mk v) = some (translateAddr v)) :
    TwoCells o.byte mk ∧ DataTested o.byte mk ∧ FetchTested :=
  ⟨twoCells_of_format ho, dataTested_of_format ho hd, fetchTested⟩

/-- Settles O39: ADD is the accumulator shape with the saturating add, whose value is the capped sum of naturals. -/
theorem addSaturates : Obligations.AddSaturates := by
  refine ⟨fun s v b hb => ?_, dataInstr_tested (o := .add) rfl fun _ => rfl⟩
  obtain ⟨t, ht, hac, hframe⟩ := intoAccumulator_result satAdd hb
  exact ⟨t, (exec_add v s).trans ht, by rw [hac, satAdd_toNat], hframe⟩

/-- Settles O40: OR is the accumulator shape with the bitwise or, read bit by bit. -/
theorem orIsBitwise : Obligations.OrIsBitwise := by
  refine ⟨fun s v b hb => ?_, dataInstr_tested (o := .or) rfl fun _ => rfl⟩
  obtain ⟨t, ht, hac, hframe⟩ := intoAccumulator_result (fun a b => a ||| b) hb
  exact ⟨t, (exec_or v s).trans ht, fun k => by rw [hac, BitVec.getLsbD_or], hframe⟩

/-- Settles O41: AND is the accumulator shape with the bitwise and, read bit by bit. -/
theorem andIsBitwise : Obligations.AndIsBitwise := by
  refine ⟨fun s v b hb => ?_, dataInstr_tested (o := .and) rfl fun _ => rfl⟩
  obtain ⟨t, ht, hac, hframe⟩ := intoAccumulator_result (fun a b => a &&& b) hb
  exact ⟨t, (exec_and v s).trans ht, fun k => by rw [hac, BitVec.getLsbD_and], hframe⟩

end Sys2Proof.Machine
end

section
/-! PROOFS. JMP, JN, JZ and HLT (43_control.md R160 to R163). -/

namespace Sys2Proof.Machine

open Sys2Proof.Forms

variable {s : State} {o : Opcode} {mk : Byte → Instr} {v : Byte}

/-! The jumps. -/

theorem exec_jmp (v : Byte) (s : State) : exec (.jmp v) s = jumpIf true v s := rfl

theorem exec_jn (v : Byte) (s : State) : exec (.jn v) s = jumpIf s.n v s := rfl

theorem exec_jz (v : Byte) (s : State) : exec (.jz v) s = jumpIf s.z v s := rfl

/-- The result and the frame of JMP, JN and JZ. The target is tested by the next step's fetch alone (43_control.md R164). -/
theorem jumpIf_result (taken : Bool) (v : Byte) (s : State) :
    ∃ t, jumpIf taken v s = .next t ∧ t.pc = (if taken = true then 4 + 2 * v.toNat else s.pc + 4) ∧ t.ac = s.ac ∧
      MemoryKept s t ∧ StatusKept s t ∧ FlagsKept s t ∧
      (s.Running → taken = true → s.mem.size ≤ 4 + 2 * v.toNat → stepEvent t = .outOfBounds .fetch (4 + 2 * v.toNat)) := by
  cases taken with
  | true =>
    exact ⟨_, jumpIf_eq true, rfl, rfl, memoryKept_of_eq rfl, ⟨rfl, rfl⟩, flagsKept_updateFlags rfl,
      fun hr _ hbeyond => fetchTested _ hr (Memory.load_eq_none.2 hbeyond)⟩
  | false =>
    exact ⟨_, jumpIf_eq false, rfl, rfl, memoryKept_of_eq rfl, ⟨rfl, rfl⟩, flagsKept_updateFlags rfl,
      fun _ htaken => nomatch htaken⟩

/-- A format A instruction with no data address is executed whatever its operand is (40_cycle.md R107). -/
theorem noDataTest_of_format (ho : o.format = .a mk) (hd : ∀ v, dataAddress (mk v) = none) : NoDataTest o.byte mk :=
  fun _ v hr h hv => (step_of_fetch hr (fetch_of_format_a ho h hv)).2.trans (execEvent_of_no_data (hd v))

/-- Length and bounds tests, in the order of the step, of a format A instruction that accesses no data (40_cycle.md R103,
R105). -/
theorem noDataInstr_tested (ho : o.format = .a mk) (hd : ∀ v, dataAddress (mk v) = none) :
    TwoCells o.byte mk ∧ NoDataTest o.byte mk ∧ FetchTested :=
  ⟨twoCells_of_format ho, noDataTest_of_format ho hd, fetchTested⟩

/-! A JMP to its own cell. -/

/-- Running states that every step keeps have no end (40_cycle.md R111). -/
theorem runToHalt_eq_none_of_keeps {P : State → Prop} (running : ∀ u, P u → u.Running)
    (keep : ∀ u, P u → P (stepState u)) (fuel : Nat) (h : P s) : runToHalt fuel s = none := by
  induction fuel generalizing s with
  | zero => simp [runToHalt, running s h]
  | succ fuel ih => simp [runToHalt, running s h, ih (keep s h)]

/-- A running state whose next instruction is a JMP, with operand `v`, to the cell it stands in. -/
structure State.AtSelfJump (v : Byte) (s : State) : Prop where
  running : s.Running
  opcode : s.mem.load s.pc = some Opcode.jmp.byte
  operand : s.mem.load (s.pc + 2) = some v
  target : s.pc = translateAddr v

/-- A JMP to its own cell does nothing but recompute the flags. -/
theorem stepState_of_atSelfJump (h : s.AtSelfJump v) : stepState s = s.updateFlags := by
  have hstep : step s = exec (.jmp v) s := (step_of_fetch h.running (fetch_of_format_a rfl h.opcode h.operand)).1
  have hpc : s.setPc (translateAddr v) = s := by rw [← h.target]; rfl
  exact stepState_of_step (by rw [hstep, exec_jmp, jumpIf_eq, if_pos rfl, hpc])

/-- The flags play no part in the self-jump, so it meets itself again. -/
theorem stepState_keeps_atSelfJump (h : s.AtSelfJump v) : (stepState s).AtSelfJump v := by
  rw [stepState_of_atSelfJump h]
  exact ⟨h.running, h.opcode, h.operand, h.target⟩

/-- Settles O43: JMP is the jump that is always taken; at its own cell it is a running state that every step keeps. -/
theorem jmpJumps : Obligations.JmpJumps := by
  refine ⟨fun s v => ?_, fun s v hr hop hv hpc fuel => ?_, noDataInstr_tested (o := .jmp) rfl fun _ => rfl⟩
  · obtain ⟨t, ht, hpc, hac, hmem, hstatus, hflags, hbeyond⟩ := jumpIf_result true v s
    exact ⟨t, (exec_jmp v s).trans ht, hpc, hac, hmem, hstatus, hflags, fun hr => hbeyond hr rfl⟩
  · exact runToHalt_eq_none_of_keeps (P := State.AtSelfJump v) (fun _ h => h.running)
      (fun _ => stepState_keeps_atSelfJump) fuel ⟨hr, hop, hv, hpc⟩

/-- Settles O44: JN is the jump taken if N; the flag invariant reads N off AC. -/
theorem jnJumpsIfNegative : Obligations.JnJumpsIfNegative := by
  refine ⟨fun s v => ?_, fun _ hs => hs.negative, noDataInstr_tested (o := .jn) rfl fun _ => rfl⟩
  rw [exec_jn]
  exact jumpIf_result s.n v s

/-- Settles O45: JZ is the jump taken if Z; the flag invariant reads Z off AC. -/
theorem jzJumpsIfZero : Obligations.JzJumpsIfZero := by
  refine ⟨fun s v => ?_, fun _ hs => hs.zero, noDataInstr_tested (o := .jz) rfl fun _ => rfl⟩
  rw [exec_jz]
  exact jumpIf_result s.z v s

/-! The halt. -/

theorem exec_hlt (s : State) : exec .hlt s = .next (s.setHalt.advance 1).updateFlags := rfl

/-- Settles O46: HLT leaves a state with HALT set, which is terminal and so stays, with NoOp for every later step. -/
theorem hltHalts : Obligations.HltHalts := by
  refine ⟨fun s => ?_, oneCell_of_format (o := .hlt) rfl, fetchTested⟩
  have hterm : (s.setHalt.advance 1).updateFlags.terminal = true := terminal_iff.2 (.inl rfl)
  exact ⟨_, exec_hlt s, rfl, rfl, rfl, rfl, memoryKept_of_eq rfl, flagsKept_updateFlags rfl, hterm,
    fun k => ⟨runFor_terminal hterm k, eventsFor_terminal hterm k⟩⟩

end Sys2Proof.Machine
end

section
/-! PROOFS. Decoding inverts encoding (30_encoding.md R70 to R72), and the opcode table's numbering of it (log entry 19). -/

namespace Sys2Proof

variable {bs rest tail : List Byte} {i : Instr} {v : Byte}

/-! One cell at a time. -/

/-- What lies beyond a skipped padding byte: the padding stands there, or it is missing and so is everything after it
(20_memory.md R52). -/
theorem drop_one_eq : tail.drop 1 = rest ↔ (∃ p, tail = p :: rest) ∨ (tail = [] ∧ rest = []) := by
  cases tail with
  | nil => simp [eq_comm]
  | cons p tail => simp

/-- The decoder in one line for each format: the opcode's byte comes first, the operand's byte after the padding. -/
theorem decode_eq_instr : decode bs = .instr i rest ↔ ∃ tail, bs = i.opcode.byte :: tail ∧
    ((i.operand = none ∧ tail.drop 1 = rest) ∨
      ∃ v after, i.operand = some v ∧ tail.drop 1 = v :: after ∧ after.drop 1 = rest) := by
  constructor
  · intro h
    match bs, h with
    | op :: tail, h =>
      simp only [decode] at h
      cases ho : decodeOpcode op with
      | none => simp [ho] at h
      | some o =>
        have hop := decodeOpcode_eq_some.1 ho
        cases hf : o.format with
        | z j =>
          simp only [ho, hf, Decoded.instr.injEq] at h
          obtain ⟨rfl, hrest⟩ := h
          obtain ⟨e, hn, -⟩ := format_z hf
          exact ⟨tail, by rw [hop, e], .inl ⟨hn, hrest⟩⟩
        | a mk =>
          cases ht : tail.drop 1 with
          | nil => simp [ho, hf, ht] at h
          | cons v after =>
            simp only [ho, hf, ht, Decoded.instr.injEq] at h
            obtain ⟨rfl, hrest⟩ := h
            obtain ⟨e, hv, -⟩ := format_a hf v
            exact ⟨tail, by rw [hop, e], .inr ⟨v, after, hv, ht, hrest⟩⟩
  · rintro ⟨tail, rfl, ⟨hn, rfl⟩ | ⟨v, after, hv, ht, rfl⟩⟩
    · simp [decode, format_of_operand_none hn]
    · obtain ⟨mk, hf, rfl⟩ := format_of_operand_some hv
      simp only [decode, decodeOpcode_byte, hf, ht]

/-- Settles O3: format by format, a stream that decodes is opcode byte, padding, and in format A operand byte, padding; the
last padding is the one that may be missing. -/
theorem decodeIsTheInverseOfEncode : Obligations.DecodeIsTheInverseOfEncode := by
  intro bs rest i
  rw [decode_eq_instr]
  cases ho : i.operand with
  | none =>
    simp only [encodeWith_z ho, drop_one_eq, true_and, reduceCtorEq, false_and, exists_false, or_false]
    constructor
    · rintro ⟨tail, rfl, ⟨p, rfl⟩ | ⟨rfl, rfl⟩⟩
      · exact .inl ⟨p, 0#8, rfl⟩
      · exact .inr ⟨rfl, 0#8, 0#8, rfl⟩
    · rintro (⟨p, -, rfl⟩ | ⟨rfl, -, -, rfl⟩)
      · exact ⟨_, rfl, .inl ⟨p, rfl⟩⟩
      · exact ⟨_, rfl, .inr ⟨rfl, rfl⟩⟩
  | some v =>
    simp only [encodeWith_a ho, drop_one_eq, Option.some.injEq, reduceCtorEq, false_and, and_false, or_false, false_or]
    constructor
    · rintro ⟨-, rfl, -, after, rfl, ⟨p, rfl⟩, ⟨q, rfl⟩ | ⟨rfl, rfl⟩⟩
      · exact .inl ⟨p, q, rfl⟩
      · exact .inr ⟨rfl, p, 0#8, rfl⟩
    · rintro (⟨p, q, rfl⟩ | ⟨rfl, p, -, rfl⟩)
      · exact ⟨_, rfl, v, _, rfl, ⟨p, rfl⟩, .inl ⟨q, rfl⟩⟩
      · exact ⟨_, rfl, v, _, rfl, ⟨p, rfl⟩, .inr ⟨rfl, rfl⟩⟩

theorem decode_encode (i : Instr) (rest : List Byte) : decode (encode i ++ rest) = .instr i rest :=
  (decodeIsTheInverseOfEncode _ _ _).2 (.inl ⟨_, _, rfl⟩)

/-- Settles O2: each stream is evaluated by the decoder. -/
theorem specWordsDecode : Obligations.SpecWordsDecode := by
  unfold Obligations.SpecWordsDecode
  decide

/-! The opcode table's numbering. -/

/-- The number of one cell, with no bit set beyond it. -/
theorem tableBytes_one_cell (b : Byte) : tableBytes 16 b.toNat = [b, 0#8, 0#8, 0#8] := by
  have hb := b.isLt
  simp only [tableBytes, List.cons.injEq, and_true]
  refine ⟨?_, ?_, ?_, ?_⟩ <;> apply BitVec.eq_of_toNat_eq <;> simp only [BitVec.toNat_ofNat] <;> omega

/-- The number of two cells: the operand byte from bit 16 on. -/
theorem tableBytes_two_cells (b v : Byte) : tableBytes 32 (b.toNat + 2 ^ 16 * v.toNat) = [b, 0#8, v, 0#8] := by
  have hb := b.isLt
  have hv := v.isLt
  simp only [tableBytes, List.cons.injEq, and_true]
  refine ⟨?_, ?_, ?_, ?_⟩ <;> apply BitVec.eq_of_toNat_eq <;> simp only [BitVec.toNat_ofNat] <;> omega

/-- An instruction's number is its encoding, with zero bytes after it up to four. -/
theorem tableBytes_tableWord (i : Instr) : ∃ rest, tableBytes (tableBits i) (tableWord i) = encode i ++ rest := by
  cases ho : i.operand with
  | none =>
    refine ⟨[0#8, 0#8], ?_⟩
    simpa [tableBits, tableWord, hasOperand_opcode, ho, encode, encodeWith_z ho] using tableBytes_one_cell i.opcode.byte
  | some v =>
    refine ⟨[], ?_⟩
    simpa [tableBits, tableWord, hasOperand_opcode, ho, encode, encodeWith_a ho] using tableBytes_two_cells i.opcode.byte v

/-- Settles O5: the bytes of the number begin with the instruction's encoding. -/
theorem tableWordDecodesBack : Obligations.TableWordDecodesBack := by
  intro i
  obtain ⟨rest, h⟩ := tableBytes_tableWord i
  simp only [decodeTableWord, h, decode_encode]

end Sys2Proof
end

section
/-! PROOFS. The canonical memory: stores, buffers, and what determines it (20_memory.md R50, R58; log entry 3). -/

namespace Sys2Proof.Machine

namespace Memory

variable {m m' : Memory}

/-- Beyond the buffer a canonical memory lists nothing, so what it reads within determines it. -/
theorem wf_ext (hm : m.wf = true) (hm' : m'.wf = true) (hsize : m.size = m'.size) (hload : ∀ o, m.load o = m'.load o) :
    m = m' := by
  obtain ⟨n, cs⟩ := m
  obtain ⟨n', cs'⟩ := m'
  obtain rfl : n = n' := hsize
  have hcells : cs = cs' := canonicalFrom_ext hm hm' fun o => by
    by_cases ho : o < n
    · have h := hload o
      rwa [load_of_lt ho, load_of_lt (m := ⟨n, cs'⟩) ho, Option.some.injEq] at h
    · rw [lookup_beyond hm (Nat.not_lt.1 ho), lookup_beyond hm' (Nat.not_lt.1 ho)]
  rw [hcells]

theorem toBytes_ofBytes (img : List Byte) : (ofBytes img).toBytes = img :=
  List.ext_getElem? fun o => by rw [getElem?_toBytes, load_ofBytes]

theorem ofBytes_toBytes (hm : m.wf = true) : ofBytes m.toBytes = m :=
  wf_ext (ofBytes_wf _) hm toBytes_length fun o => by rw [load_ofBytes, getElem?_toBytes]

end Memory

/-- Settles O9: each clause is what a store within the buffer does. -/
theorem storeThenLoad : Obligations.StoreThenLoad := by
  intro m o b hm ho
  have hs := Memory.store_eq_some (b := b) |>.2 ⟨ho, rfl⟩
  exact ⟨_, hs, Memory.store_load_same hm hs, fun _ => Memory.store_load_other hs, Memory.store_size hs,
    Memory.store_wf hm hs⟩

/-- Settles O10: the canonical form leaves one list of bytes for each way to read. -/
theorem canonicalMemoryIsDetermined : Obligations.CanonicalMemoryIsDetermined := fun _ _ => Memory.wf_ext

/-- Settles O11: laying a buffer down and reading it are inverse, one way on bytes, the other way on canonical memories. -/
theorem bufferIsHeldExactly : Obligations.BufferIsHeldExactly :=
  ⟨fun img => ⟨Memory.ofBytes_wf img, Memory.toBytes_ofBytes img, Memory.load_ofBytes img⟩,
    fun _ => Memory.ofBytes_toBytes⟩

end Sys2Proof.Machine
end

section
/-! PROOFS. What the fetch finds where bytes stand: on the decoder's window, in an image, in a placed word (40_cycle.md
R102 to R105). -/

namespace Sys2Proof.Machine

variable {s : State} {i : Instr} {m : Memory} {o k : Nat}

/-! The fetch and the decoder. -/

/-- The bytes after the first of a window are the window one offset on: past the end of the buffer nothing exists. -/
theorem Memory.window_drop_one : (m.window o (k + 1)).drop 1 = m.window (o + 1) k := by
  cases h : m.load o with
  | none =>
    have hnext : m.load (o + 1) = none := Memory.load_eq_none.2 (Nat.le_succ_of_le (Memory.load_eq_none.1 h))
    cases k <;> simp [Memory.window, h, hnext]
  | some b => simp [Memory.window, h]

/-- The decoder on the bytes at PC follows the fetch into each of its outcomes. -/
theorem fetch_decode_cases (s : State) :
    (∃ i rest, fetch s = .instr i ∧ decode (s.mem.window s.pc 4) = .instr i rest) ∨
    (∃ op, fetch s = .unknown op ∧ decode (s.mem.window s.pc 4) = .rejected (.unknownOpcode op)) ∨
    (fetch s = .outOfBounds .fetch s.pc ∧ decode (s.mem.window s.pc 4) = .rejected .noOpcode) ∨
    (fetch s = .outOfBounds .operand (s.pc + 2) ∧ ∃ o, decode (s.mem.window s.pc 4) = .rejected (.noOperand o)) := by
  cases hop : s.mem.load s.pc with
  | none =>
    have hw : s.mem.window s.pc 4 = [] := by simp [Memory.window, hop]
    exact .inr (.inr (.inl ⟨fetch_eq_outOfBounds.2 (.inl ⟨rfl, rfl, Memory.load_eq_none.1 hop⟩), by rw [hw]; rfl⟩))
  | some op =>
    have hw : s.mem.window s.pc 4 = op :: s.mem.window (s.pc + 1) 3 := by simp [Memory.window, hop]
    rw [hw]
    cases ho : decodeOpcode op with
    | none => exact .inr (.inl ⟨op, fetch_eq_unknown.2 ⟨hop, ho⟩, by simp [decode, ho]⟩)
    | some o =>
      cases hf : o.format with
      | z j => exact .inl ⟨j, (s.mem.window (s.pc + 1) 3).drop 1, fetch_eq_instr.2 ⟨op, o, hop, ho, .inl ⟨j, hf, rfl⟩⟩,
          by simp only [decode, ho, hf]⟩
      | a mk =>
        have hhas := (format_a hf 0#8).2.2
        cases hv : s.mem.load (s.pc + 2) with
        | none =>
          have hw2 : s.mem.window (s.pc + 2) 2 = [] := by simp [Memory.window, hv]
          exact .inr (.inr (.inr ⟨fetch_eq_outOfBounds.2 (.inr ⟨rfl, rfl, Memory.load_eq_none.1 hv, op, o, hop, ho, hhas⟩),
            o, by simp only [decode, ho, hf, Memory.window_drop_one, hw2]⟩))
        | some v =>
          have hw2 : s.mem.window (s.pc + 2) 2 = v :: s.mem.window (s.pc + 3) 1 := by simp [Memory.window, hv]
          exact .inl ⟨mk v, (s.mem.window (s.pc + 3) 1).drop 1, fetch_eq_instr.2 ⟨op, o, hop, ho, .inr ⟨mk, v, hf, hv, rfl⟩⟩,
            by simp only [decode, ho, hf, Memory.window_drop_one, hw2]⟩

/-- Settles O17: fetch and decoder take the same one of four outcomes, and the outcomes exclude each other. -/
theorem fetchAgreesWithTheDecoder : Obligations.FetchAgreesWithTheDecoder := by
  intro s
  rcases fetch_decode_cases s with ⟨i, rest, hf, hd⟩ | ⟨op, hf, hd⟩ | ⟨hf, hd⟩ | ⟨hf, o, hd⟩ <;> simp [hf, hd]

/-- Settles O16: what the bytes decode to is what the fetch finds. -/
theorem stepRunsTheDecodedInstruction : Obligations.StepRunsTheDecodedInstruction := fun s i rest hr hd =>
  step_of_fetch hr (((fetchAgreesWithTheDecoder s).1 i).2 ⟨rest, hd⟩)

/-! Images. -/

/-- An instruction is fetched where its encoding can be read from PC on. -/
theorem fetch_of_load_encode {after : List Byte}
    (hload : ∀ j b, (encode i ++ after)[j]? = some b → s.mem.load (s.pc + j) = some b) : fetch s = .instr i := by
  refine fetch_of_bytes (hload 0 _ ?_) fun v hv => hload 2 v ?_
  · cases ho : i.operand with
    | none => rw [encode, encodeWith_z ho]; rfl
    | some v => rw [encode, encodeWith_a ho]; rfl
  · rw [encode, encodeWith_a hv]; rfl

/-- What stands in a buffer after other bytes is read from the offset it begins at. -/
theorem load_ofBytes_append (before after : List Byte) (j : Nat) :
    (Memory.ofBytes (before ++ after)).load (before.length + j) = after[j]? := by
  rw [Memory.load_ofBytes, List.getElem?_append_right (Nat.le_add_right _ _), Nat.add_sub_cancel_left]

/-- An encoding within a buffer is fetched from the offset it begins at. -/
theorem fetch_of_encode {before after : List Byte} (hm : s.mem = Memory.ofBytes (before ++ (encode i ++ after)))
    (hpc : s.pc = before.length) : fetch s = .instr i :=
  fetch_of_load_encode fun j b hb => by rw [hm, hpc, load_ofBytes_append, hb]

/-- Settles O4: the program's bytes are those of the instructions before, of the instruction, and of those after. -/
theorem encodedProgramIsFetchedBack : Obligations.EncodedProgramIsFetchedBack := by
  intro prog k i hk
  obtain ⟨hlt, rfl⟩ := List.getElem?_eq_some_iff.1 hk
  refine fetch_of_encode (before := Config.magic ++ (prog.take k).flatMap encode)
    (after := (prog.drop (k + 1)).flatMap encode) ?_ ?_
  · have hsplit : prog = prog.take k ++ prog[k] :: prog.drop (k + 1) := by
      rw [← List.drop_eq_getElem_cons hlt, List.take_append_drop]
    have hbytes : prog.flatMap encode =
        (prog.take k).flatMap encode ++ (encode prog[k] ++ (prog.drop (k + 1)).flatMap encode) := by
      conv_lhs => rw [hsplit]
      rw [List.flatMap_append, List.flatMap_cons]
    rw [List.append_assoc, ← hbytes]
    rfl
  · rw [List.length_append]; rfl

/-! Placed words. -/

/-- The bytes of a placed instruction stand at PC. -/
theorem fetch_withFetchWord (hm : s.mem.wf = true) (i : Instr) :
    fetch (s.withFetchWord (tableBits i) (tableWord i)) = .instr i := by
  obtain ⟨rest, hbytes⟩ := tableBytes_tableWord i
  refine fetch_of_load_encode (after := rest) fun j b hb => ?_
  obtain ⟨hj, rfl⟩ := List.getElem?_eq_some_iff.1 hb
  simp only [State.withFetchWord, State.placeAtPc, hbytes]
  exact Memory.load_place _ hm hj

/-- Settles O6: the placed state runs and fetches the instruction, and placing keeps the canonical form. -/
theorem placedInstructionRunsNext : Obligations.PlacedInstructionRunsNext := fun _ i hm =>
  ⟨(step_of_fetch rfl (fetch_withFetchWord hm i)).1, Memory.place_wf _ hm⟩

end Sys2Proof.Machine
end

section
/-! PROOFS. The loader and the state it creates (70_reset_and_hazards.md R220 to R223). -/

namespace Sys2Proof.Machine

variable {s t : State} {img : List Byte}

theorem ofImage_running (img : List Byte) : (State.ofImage img).Running := rfl

theorem ofImage_vpc (img : List Byte) : (State.ofImage img).vpc = 0 := by
  simp [State.vpc, State.ofImage, Config.entryPc]

/-- With no out-of-bounds access recorded, the two terminal conditions have nothing to agree on. -/
theorem State.statusInv_of_oob_none (h : s.oob = none) : s.StatusInv := by
  constructor <;> simp [h]

/-- The invariant of every image that passes the header check. -/
theorem ofImage_inv (h : imageWellFormed img = true) : (State.ofImage img).Inv := by
  obtain ⟨rest, rfl⟩ := imageWellFormed_iff.1 h
  have hbound : Config.entryPc ≤ 514 := by decide
  refine ⟨⟨⟨0, rfl⟩, le_max_of_le_right hbound⟩, State.updateFlags_flagsInv (State.ofImage _),
    ⟨Memory.ofBytes_wf _, fun o ho => ?_⟩, State.statusInv_of_oob_none rfl⟩
  exact (Memory.load_ofBytes _ _).trans (List.getElem?_append_left ho)

/-- Settles O12: the header check passes, and the state is the reset state of the whole buffer. -/
theorem loadCreatesTheResetState : Obligations.LoadCreatesTheResetState := fun rest =>
  ⟨State.ofImage (Config.magic ++ rest), load_eq_next.2 ⟨imageWellFormed_iff.2 ⟨rest, rfl⟩, rfl⟩,
    (List.length_append).trans rfl, Memory.load_ofBytes _, rfl, rfl, ofImage_vpc _, rfl, rfl, rfl, rfl⟩

/-- Settles O13: such a buffer fails the header check. -/
theorem loadRefusesEveryOtherPrefix : Obligations.LoadRefusesEveryOtherPrefix := by
  intro img h
  have hbad : ¬ imageWellFormed img = true := fun hw => h (imageWellFormed_iff.1 hw)
  rw [load, if_neg hbad]

/-- Settles O14: reset is the load of the header, and a loaded state is the reset state of an image with the header. -/
theorem invariantHoldsAfterEveryLoad : Obligations.InvariantHoldsAfterEveryLoad := by
  have hreset : load Config.magic = .next State.reset := rfl
  have hload : ∀ (img : List Byte) (t : State), load img = .next t → t.Inv ∧ t.Running := fun img t h => by
    obtain ⟨hw, rfl⟩ := load_eq_next.1 h
    exact ⟨ofImage_inv hw, ofImage_running img⟩
  obtain ⟨hinv, hrun⟩ := hload _ _ hreset
  exact ⟨hreset, hinv, hrun, hload⟩

/-- Settles O15: PC is 4, the length too, so the first opcode fetch fails its test. -/
theorem imageWithNoCellEndsAtTheFirstFetch : Obligations.ImageWithNoCellEndsAtTheFirstFetch := by
  intro img t h hlen
  obtain ⟨-, rfl⟩ := load_eq_next.1 h
  have hf : fetch (State.ofImage img) = .outOfBounds .fetch 4 := fetch_eq_outOfBounds.2 (.inl ⟨rfl, rfl, hlen.le⟩)
  refine ⟨rfl, stepEvent_of_fetch_outOfBounds rfl hf, ?_⟩
  simp only [step, cycle, hf]
  rfl

end Sys2Proof.Machine
end

section
/-! PROOFS. What a step answers and reports, and what an out-of-bounds access leaves (40_cycle.md R104, R108, R109). -/

namespace Sys2Proof.Machine

variable {s t : State} {i : Instr} {op : Byte} {ph : Phase} {a o : Nat}

/-! Every step answers. -/

theorem exec_answers (i : Instr) (s : State) : ∃ t, exec i s = .next t := by
  rcases exec_cases i s with ⟨_, -, -, h, -⟩ | ⟨-, h, -⟩ <;> exact ⟨_, h⟩

/-- Settles O18: an instruction completes or raises OutOfBounds, and both are next states; a step always has one. -/
theorem everyStepAnswersANextState : Obligations.EveryStepAnswersANextState :=
  ⟨exec_answers, fun s => ⟨stepState s, step_eq_stepState s⟩⟩

/-! The event says what the step does. -/

/-- The state a step leaves, read off its event. -/
def afterEvent (s : State) : StepEvent → State
  | .noOp => s
  | .executed i => (completed i s).updateFlags
  | .skipped _ _ => s.advance 1
  | .outOfBounds ph o => s.raise ph o

/-- A step does nothing that its event does not say (40_cycle.md R109). -/
theorem next_eq_afterEvent (h : step s = .next t) : t = afterEvent s (stepEvent s) := by
  rcases next_by_event h with ⟨he, -, ht⟩ | ⟨_, _, he, ht, -⟩ | ⟨_, he, ht, -⟩ | ⟨_, he, ht, -⟩ <;> rw [he, ht] <;> rfl

/-! Unknown opcodes. -/

/-- On a running state with an unknown byte at PC the step is the skip of one cell (40_cycle.md R104). -/
theorem step_of_unknown (hr : s.Running) (h : fetch s = .unknown op) :
    step s = .next (s.advance 1) ∧ stepEvent s = .skipped op s.pc := by
  simp [step, stepEvent, cycle, hr, h]

/-- Settles O20: the map has no entry for such a byte, so it is one cell long and the fetch finds it unknown; the bytes are
counted by evaluating the map on all 256. -/
theorem unknownOpcodeIsSkipped : Obligations.UnknownOpcodeIsSkipped :=
  ⟨fun b hb => by simp [lengthCells, hb], by decide +kernel, fun _ _ hr hop ho =>
    step_of_unknown hr (fetch_eq_unknown.2 ⟨hop, ho⟩)⟩

/-! OutOfBounds. -/

/-- Settles O21: the event OutOfBounds says that the step is the raise. -/
theorem outOfBoundsCommitsOnlyTheStatus : Obligations.OutOfBoundsCommitsOnlyTheStatus := by
  intro s ph o he
  rw [step_eq_stepState, next_eq_afterEvent (step_eq_stepState s), he]
  rfl

/-- A step reports OutOfBounds where its fetch fails, or where the instruction fetched has a data address beyond the
buffer. -/
theorem stepEvent_eq_outOfBounds : stepEvent s = .outOfBounds ph o ↔ s.Running ∧
    (fetch s = .outOfBounds ph o ∨ ∃ i, fetch s = .instr i ∧ ph = .data ∧ dataAddress i = some o ∧ s.mem.size ≤ o) := by
  constructor
  · intro he
    rcases step_outcomes s with ⟨-, -, h⟩ | ⟨hr, _, _, -, h, hf⟩ | ⟨-, _, -, -, h⟩ | ⟨-, _, -, -, h, -⟩ <;>
      rw [he] at h <;> cases h
    exact ⟨hr, hf⟩
  · rintro ⟨hr, hf | ⟨i, hf, rfl, ha, hle⟩⟩
    · exact stepEvent_of_fetch_outOfBounds hr hf
    · rw [(step_of_fetch hr hf).2, execEvent_of_data ha, if_neg (Nat.not_lt.2 hle)]

/-- The opcode bytes that an operand cell follows (30_encoding.md R75). -/
abbrev operandBytes : List Byte := [0x10#8, 0x20#8, 0x30#8, 0x40#8, 0x50#8, 0x60#8, 0x80#8, 0x90#8, 0xA0#8]

/-- The opcode bytes of the instructions with a data address (40_cycle.md R107). -/
abbrev dataBytes : List Byte := [0x10#8, 0x20#8, 0x30#8, 0x40#8, 0x50#8]

theorem mem_operandBytes : op ∈ operandBytes ↔ ∃ c, decodeOpcode op = some c ∧ c.hasOperand = true := by
  simp only [decodeOpcode_eq_some]
  constructor
  · simp only [List.mem_cons, List.not_mem_nil, or_false]
    rintro (rfl | rfl | rfl | rfl | rfl | rfl | rfl | rfl | rfl)
    exacts [⟨.sta, rfl, rfl⟩, ⟨.lda, rfl, rfl⟩, ⟨.add, rfl, rfl⟩, ⟨.or, rfl, rfl⟩, ⟨.and, rfl, rfl⟩, ⟨.not, rfl, rfl⟩,
      ⟨.jmp, rfl, rfl⟩, ⟨.jn, rfl, rfl⟩, ⟨.jz, rfl, rfl⟩]
  · rintro ⟨c, rfl, h⟩
    revert h
    cases c <;> decide

theorem dataAddress_eq_some :
    dataAddress i = some a ↔ i.opcode.byte ∈ dataBytes ∧ ∃ v, i.operand = some v ∧ a = translateAddr v := by
  cases i <;> simp [dataAddress, Instr.opcode, Opcode.byte, Instr.operand, eq_comm]

theorem mem_operandBytes_of_mem_dataBytes (h : op ∈ dataBytes) : op ∈ operandBytes :=
  List.mem_append_left [0x60#8, 0x80#8, 0x90#8, 0xA0#8] h

/-- The data address of the instruction fetched, read off the bytes at PC. -/
theorem fetch_dataAddress_eq_some : (∃ i, fetch s = .instr i ∧ dataAddress i = some o) ↔
    ∃ op v, s.mem.load s.pc = some op ∧ op ∈ dataBytes ∧
      s.mem.load (s.pc + 2) = some v ∧ o = 4 + 2 * v.toNat := by
  constructor
  · rintro ⟨i, hf, hd⟩
    obtain ⟨hop, hv⟩ := bytes_of_fetch hf
    obtain ⟨hmem, v, hi, ho⟩ := dataAddress_eq_some.1 hd
    exact ⟨_, v, hop, hmem, hv v hi, ho⟩
  · rintro ⟨op, v, hop, hmem, hv, ho⟩
    obtain ⟨c, hc, hhas⟩ := mem_operandBytes.1 (mem_operandBytes_of_mem_dataBytes hmem)
    cases hfmt : c.format with
    | z j => simp [Opcode.hasOperand, hfmt] at hhas
    | a mk =>
      obtain ⟨e, hi, -⟩ := format_a hfmt v
      refine ⟨mk v, fetch_eq_instr.2 ⟨op, c, hop, hc, .inr ⟨mk, v, hfmt, hv, rfl⟩⟩, dataAddress_eq_some.2 ⟨?_, v, hi, ho⟩⟩
      rwa [e, ← decodeOpcode_eq_some.1 hc]

/-- Settles O22: the fetch fails at its first or its second test, or an instruction with a data address is fetched. -/
theorem outOfBoundsIsTheFirstFailingAccess : Obligations.OutOfBoundsIsTheFirstFailingAccess := by
  intro s ph o
  rw [stepEvent_eq_outOfBounds, fetch_eq_outOfBounds, or_assoc]
  refine and_congr_right fun _ => or_congr ?_ (or_congr ?_ ?_)
  · exact and_congr_right fun _ => and_congr_right fun ho => by rw [ho]
  · refine and_congr_right fun _ => and_congr_right fun ho => ?_
    simp only [ho, mem_operandBytes, exists_and_left]
  · rw [← fetch_dataAddress_eq_some]
    constructor
    · rintro ⟨i, hf, hph, hd, hle⟩; exact ⟨hph, hle, i, hf, hd⟩
    · rintro ⟨hph, hle, i, hf, hd⟩; exact ⟨i, hf, hph, hd, hle⟩

theorem oob_of_running (hr : s.Running) : s.oob = none :=
  Decidable.byContradiction fun h => Bool.false_ne_true (hr.symm.trans (terminal_iff.2 (.inr h)))

theorem halt_of_running (hr : s.Running) : s.halt = false :=
  Bool.eq_false_iff.2 fun h => Bool.false_ne_true (hr.symm.trans (terminal_iff.2 (.inl h)))

/-- Settles O27: only the raise writes OOB, from a running state, where OOB is none. -/
theorem oobRecordsTheDetectedAccess : Obligations.OobRecordsTheDetectedAccess := by
  intro s t h ph o
  rcases next_by_event h with ⟨he, -, rfl⟩ | ⟨p, a, he, rfl, hr⟩ | ⟨op, he, rfl, -⟩ | ⟨i, he, rfl, -⟩
  · simp [he]
  · simp [he, oob_of_running hr]
  · simp [he]
  · simp [he, completed_oob]

end Sys2Proof.Machine
end

section
/-! PROOFS. PC and AC after a step, by its event (40_cycle.md R113, 10_state.md R21); STA, NOT and the jumps beyond the
buffer (41_transfer.md R131, 42_alu.md R144, 43_control.md R164). -/

namespace Sys2Proof.Machine

open Sys2Proof.Forms

variable {s t : State} {i : Instr} {v b : Byte}

/-- The next state after an executed instruction is that instruction's own. -/
theorem next_of_executed (h : step s = .next t) (he : stepEvent s = .executed i) :
    t = (completed i s).updateFlags ∧ s.Running ∧ fetch s = .instr i ∧ ∀ a, dataAddress i = some a → a < s.mem.size := by
  rcases next_by_event h with ⟨h', -⟩ | ⟨_, _, h', -⟩ | ⟨_, h', -⟩ | ⟨j, h', ht⟩ <;> rw [he] at h' <;> cases h'
  exact ht

/-- PC after an instruction that completes: past its cells, or the target of a taken jump (40_cycle.md R113). -/
theorem completed_pc_by_case (i : Instr) (s : State) :
    (i = .nop ∨ i = .hlt → (completed i s).pc = s.pc + 2) ∧
    (∀ v, i = .sta v ∨ i = .lda v ∨ i = .add v ∨ i = .or v ∨ i = .and v ∨ i = .not v → (completed i s).pc = s.pc + 4) ∧
    (∀ v, i = .jmp v → (completed i s).pc = 4 + 2 * v.toNat) ∧
    (∀ v, i = .jn v → (completed i s).pc = if s.n then 4 + 2 * v.toNat else s.pc + 4) ∧
    (∀ v, i = .jz v → (completed i s).pc = if s.z then 4 + 2 * v.toNat else s.pc + 4) := by
  refine ⟨?_, fun v => ?_, fun v => ?_, fun v => ?_, fun v => ?_⟩
  · rintro (rfl | rfl) <;> rfl
  · rintro (rfl | rfl | rfl | rfl | rfl | rfl) <;> rfl
  · rintro rfl; rfl
  · rintro rfl; rw [completed, apply_ite State.pc]; rfl
  · rintro rfl; rw [completed, apply_ite State.pc]; rfl

/-- Settles O24: an executed instruction's PC by its own case; a skip advances one cell; the other steps keep PC. -/
theorem pcAfterAStepByCase : Obligations.PcAfterAStepByCase := by
  intro s t h
  rcases next_by_event h with ⟨he, -, rfl⟩ | ⟨ph, a, he, rfl, -⟩ | ⟨op, he, rfl, -⟩ | ⟨i, he, rfl, -⟩
  · simp [he]
  · simp [he]
  · simp [he]
  · rw [he]
    refine ⟨fun j hj => ?_, nofun, nofun, nofun⟩
    obtain rfl := StepEvent.executed.inj hj
    exact completed_pc_by_case i s

/-- An instruction that is none of the five keeps AC (10_state.md R21). -/
theorem completed_ac (h : (completed i s).ac ≠ s.ac) :
    ∃ v, i = .lda v ∨ i = .add v ∨ i = .or v ∨ i = .and v ∨ i = .not v := by
  cases i
  case lda v | add v | or v | and v | not v => exact ⟨v, by simp⟩
  case jn v | jz v => exact absurd (by simp only [completed]; split <;> rfl) h
  all_goals exact absurd rfl h

/-- Settles O25: only an executed instruction changes AC, and only one of the five does. -/
theorem onlyFiveInstructionsWriteAc : Obligations.OnlyFiveInstructionsWriteAc := by
  intro s t h hac
  by_cases hx : ∃ i, stepEvent s = .executed i
  · obtain ⟨i, he⟩ := hx
    obtain ⟨rfl, -⟩ := next_of_executed h he
    simpa only [he, StepEvent.executed.injEq] using completed_ac hac
  · exact absurd (next_ac_flags_of_not_executed h fun i hi => hx ⟨i, hi⟩).1 hac

/-! STA. -/

theorem exec_sta_within (h : translateAddr v < s.mem.size) : ∃ m, s.mem.store (translateAddr v) s.ac = some m ∧
    exec (.sta v) s = .next ((s.setMem m).advance 2).updateFlags := by
  have hs := (Memory.store_eq_some (b := s.ac)).2 ⟨h, rfl⟩
  exact ⟨_, hs, by simp only [exec, execSta, hs, retire_eq]⟩

theorem exec_sta_beyond (h : s.mem.size ≤ translateAddr v) : exec (.sta v) s = .next (s.raise .data (translateAddr v)) := by
  simp only [exec, execSta, Memory.store_eq_none.2 h]

/-- Settles O37: within the buffer STA is one store and the advance, beyond it the raise; its opcode is format A and its
operand names the data address. -/
theorem staStoresAc : Obligations.StaStoresAc := by
  refine ⟨fun s v h => ?_, fun s v h => exec_sta_beyond h, dataInstr_tested (o := .sta) rfl fun _ => rfl⟩
  obtain ⟨m, hm, hx⟩ := exec_sta_within h
  refine ⟨_, hx, rfl, rfl, ⟨rfl, rfl⟩, flagsKept_updateFlags rfl, Memory.store_size hm, rfl, fun a ha => ?_⟩
  obtain rfl : translateAddr v = a := Option.some.inj ha
  exact ⟨fun hwf => Memory.store_load_same hwf hm, fun _ => Memory.store_load_other hm⟩

/-! NOT. -/

theorem exec_not (v : Byte) (s : State) : exec (.not v) s = .next ((s.setAc (~~~s.ac)).advance 2).updateFlags := rfl

theorem complement_toNat (a : Byte) : (~~~a).toNat = 255 - a.toNat := by rw [BitVec.toNat_not]

/-- Settles O42: NOT writes the complement and advances, its operand nowhere in the result; its opcode is format A and it has
no data address. -/
theorem notComplements : Obligations.NotComplements :=
  ⟨fun s v => ⟨_, exec_not v s, complement_toNat s.ac, rfl, State.updateFlags_flagsInv _, memoryKept_of_eq rfl, rfl, rfl⟩,
    fun _ _ _ => rfl, noDataInstr_tested (o := .not) rfl fun _ => rfl⟩

/-- Settles O47: 255 - (min (255 - AC + 1) 255) is AC - 1, and 0 where AC is 0. -/
theorem notAddNotDecrements : Obligations.NotAddNotDecrements := by
  intro s t u w v v' x hx ht hu hw
  obtain rfl := Host.Outcome.next.inj ((exec_not v s).symm.trans ht)
  have hread : ((s.setAc (~~~s.ac)).advance 2).updateFlags.mem.load (translateAddr x) = some 1#8 := hx
  rw [exec_add, intoAccumulator_some hread] at hu
  obtain rfl := Host.Outcome.next.inj hu
  obtain rfl := Host.Outcome.next.inj ((exec_not v' _).symm.trans hw)
  have hsum : (satAdd (~~~s.ac) 1#8).toNat = min (255 - s.ac.toNat + 1) 255 := by rw [satAdd_toNat, complement_toNat]; rfl
  have hw : (~~~satAdd (~~~s.ac) 1#8).toNat = s.ac.toNat - 1 := by
    have := s.ac.isLt
    rw [complement_toNat, hsum]
    omega
  exact hw

/-! Jumps beyond the buffer. -/

/-- Settles O35: the taken jump leaves a running state whose PC fails the next fetch's test, and that raise is terminal. -/
theorem jumpBeyondTheBufferEndsAtTheNextFetch : Obligations.JumpBeyondTheBufferEndsAtTheNextFetch := by
  intro s t i v hr hf hi hbeyond h
  obtain ⟨hx, hd⟩ : exec i s = jumpIf true v s ∧ dataAddress i = none := by
    rcases hi with rfl | ⟨rfl, hn⟩ | ⟨rfl, hz⟩
    · exact ⟨exec_jmp v s, rfl⟩
    · exact ⟨by rw [exec_jn, hn], rfl⟩
    · exact ⟨by rw [exec_jz, hz], rfl⟩
  obtain ⟨hs, he⟩ := step_of_fetch hr hf
  obtain ⟨t', ht', hpc, -, -, -, -, hnext⟩ := jumpIf_result true v s
  obtain rfl : t' = t := Host.Outcome.next.inj (ht'.symm.trans (hx.symm.trans (hs.symm.trans h)))
  have hev : stepEvent t' = .outOfBounds .fetch (4 + 2 * v.toNat) := hnext hr rfl hbeyond
  have hst := stepState_of_step (outOfBoundsCommitsOnlyTheStatus _ _ _ hev)
  refine ⟨he.trans (execEvent_of_no_data hd), hpc, hev, ?_⟩
  rw [hst]
  exact ⟨hpc, terminal_iff.2 (.inr nofun)⟩

end Sys2Proof.Machine
end

section
/-! PROOFS. Every step keeps the invariant of the machine, part by part (10_state.md R24, R28, R31, 20_memory.md R61). -/

namespace Sys2Proof.Machine

variable {s t : State} {i : Instr}

/-- The cells of a fetched instruction exist, but for the padding of the last one (20_memory.md R52). -/
theorem fetch_end_le (h : fetch s = .instr i) : s.pc + 2 * (if i.opcode.hasOperand then 2 else 1) ≤ s.mem.size + 1 := by
  obtain ⟨hop, hv⟩ := bytes_of_fetch h
  have hlt := (Memory.load_eq_some.1 hop).1
  rw [hasOperand_opcode]
  cases ho : i.operand with
  | none => simpa using hlt
  | some v =>
    have hlt2 := (Memory.load_eq_some.1 (hv v ho)).1
    simp
    omega

theorem next_pcInv (hi : s.PcInv) (h : step s = .next t) : t.PcInv := by
  obtain ⟨⟨k, hk⟩, hbound⟩ := hi
  rcases next_by_event h with ⟨-, -, rfl⟩ | ⟨ph, o, -, rfl, -⟩ | ⟨op, -, rfl, -, hf⟩ | ⟨i, -, rfl, -, hf, -⟩
  · exact ⟨⟨k, hk⟩, hbound⟩
  · exact ⟨⟨k, hk⟩, hbound⟩
  · have hlt := (Memory.load_eq_some.1 (fetch_eq_unknown.1 hf).1).1
    have hle : s.pc + 2 ≤ s.mem.size + 1 := by omega
    exact ⟨⟨k + 1, congrArg (· + 2) hk⟩, le_max_of_le_left hle⟩
  · rcases completed_pc (i := i) (s := s) with hpc | ⟨v, -, hpc⟩
    · refine ⟨⟨k + if i.opcode.hasOperand then 2 else 1, ?_⟩, le_max_of_le_left ?_⟩
      · rw [State.updateFlags_pc, hpc, hk, Nat.mul_add, Nat.add_assoc]
      · rw [State.updateFlags_pc, hpc, State.updateFlags_mem, completed_size]
        exact fetch_end_le hf
    · refine ⟨⟨v.toNat, hpc⟩, le_max_of_le_right ?_⟩
      rw [State.updateFlags_pc, hpc]
      exact translateAddr_upper v

theorem next_flagsInv (hi : s.FlagsInv) (h : step s = .next t) : t.FlagsInv := by
  by_cases hx : ∃ i, stepEvent s = .executed i
  · obtain ⟨i, he⟩ := hx
    exact next_flagsInv_of_executed h he
  · obtain ⟨hac, hz, hn⟩ := next_ac_flags_of_not_executed h fun i he => hx ⟨i, he⟩
    exact ⟨by rw [hz, hac]; exact hi.zero, by rw [hn, hac]; exact hi.negative⟩

theorem next_mem_wf (hm : s.mem.wf = true) (h : step s = .next t) : t.mem.wf = true := by
  rcases next_mem_cases h with ⟨-, hkept⟩ | ⟨v, -, hst⟩
  · rwa [hkept]
  · exact Memory.store_wf hm hst

theorem next_memInv (hi : s.MemInv) (h : step s = .next t) : t.MemInv := by
  refine ⟨next_mem_wf hi.canonical h, fun o ho => ?_⟩
  rw [next_load_other h fun v _ => ne_translateAddr_of_header_or_padding (.inl ho) v]
  exact hi.header o ho

/-- A recorded access is the one the step detected, so its offset is the one that failed (60_exceptions.md R202). -/
theorem raise_statusInv {ph : Phase} {o : Nat} (he : stepEvent s = .outOfBounds ph o) : (s.raise ph o).StatusInv := by
  obtain ⟨hr, hfail⟩ := (outOfBoundsIsTheFirstFailingAccess s ph o).1 he
  have hhalt : (s.raise ph o).halt = true → (s.raise ph o).oob = none := fun h => by simp [halt_of_running hr] at h
  rcases hfail with ⟨rfl, rfl, hle⟩ | ⟨rfl, rfl, hle, -⟩ | ⟨rfl, hle, -, v, -, -, -, rfl⟩
  · exact ⟨hhalt, by simpa using hle, by simp, by simp, by simp⟩
  · exact ⟨hhalt, by simpa using hle, by simp, by simp, by simp⟩
  · exact ⟨hhalt, by simpa using hle, by simp, by simp, fun e he _ => ⟨v, by rw [← Option.some.inj he]⟩⟩

theorem next_statusInv (hi : s.StatusInv) (h : step s = .next t) : t.StatusInv := by
  rcases next_by_event h with ⟨-, -, rfl⟩ | ⟨ph, o, he, rfl, -⟩ | ⟨op, -, rfl, hr, -⟩ | ⟨i, -, rfl, hr, -⟩
  · exact hi
  · exact raise_statusInv he
  · exact State.statusInv_of_oob_none (oob_of_running hr)
  · exact State.statusInv_of_oob_none (completed_oob.trans (oob_of_running hr))

/-- Settles O33: each part of the invariant is kept by itself. -/
theorem everyStepKeepsTheInvariant : Obligations.EveryStepKeepsTheInvariant := fun _ _ hi h =>
  ⟨next_pcInv hi.pcInv h, next_flagsInv hi.flagsInv h, next_memInv hi.memInv h, next_statusInv hi.statusInv h⟩

end Sys2Proof.Machine
end

section
/-! PROOFS. What a run reads from memory: the latest store, or what was there (20_memory.md section 5). -/

namespace Sys2Proof.Machine

variable {s t : State} {o k : Nat} {v : Byte}

theorem storesTo_eq_true {e : StepEvent} : storesTo o e = true ↔ ∃ v, e = .executed (.sta v) ∧ translateAddr v = o := by
  unfold storesTo
  split <;> simp_all

/-- Every byte after a step: AC where the step executed STA to it, else the byte before (20_memory.md R64). -/
theorem next_load (hm : s.mem.wf = true) (h : step s = .next t) :
    t.mem.load o = if storesTo o (stepEvent s) then some s.ac else s.mem.load o := by
  by_cases hst : storesTo o (stepEvent s) = true
  · rw [if_pos hst]
    obtain ⟨v, he, rfl⟩ := storesTo_eq_true.1 hst
    rcases next_mem_cases h with ⟨hne, -⟩ | ⟨w, hw, hstore⟩
    · exact absurd he (hne v)
    · obtain rfl : v = w := Instr.sta.inj (StepEvent.executed.inj (he.symm.trans hw))
      exact Memory.store_load_same hm hstore
  · rw [if_neg hst]
    exact next_load_other h fun v he ho => hst (storesTo_eq_true.2 ⟨v, he, ho.symm⟩)

/-- Settles O30, by induction on the run: the first step's byte is what is left where no later step stores. -/
theorem everyReadSeesTheLatestStore : Obligations.EveryReadSeesTheLatestStore := by
  intro k s o hm
  induction k generalizing s with
  | zero => rfl
  | succ k ih =>
    rw [runFor, ih _ (next_mem_wf hm (step_eq_stepState s)), next_load hm (step_eq_stepState s), lastStore]
    cases lastStore o k (stepState s) with
    | some b => rfl
    | none => cases storesTo o (stepEvent s) <;> rfl

/-- Settles O29: a data address is at most 514, and cell 256 begins at 516. -/
theorem cellsBeyond255KeepTheirBytes : Obligations.CellsBeyond255KeepTheirBytes := fun s k c hc =>
  runFor_load_of_no_address (fun v => by have := translateAddr_upper v; omega) k s

/-- An executed STA neither halts nor records an access, so the state it leaves runs. -/
theorem running_of_sta (h : step s = .next t) (he : stepEvent s = .executed (.sta v)) : t.Running := by
  obtain ⟨rfl, hr, -⟩ := next_of_executed h he
  exact hr

/-- Settles O31: the next step's opcode fetch reads the stored byte, and finds it unknown or an HLT. -/
theorem storeIsSeenByTheNextFetch : Obligations.StoreIsSeenByTheNextFetch := by
  intro s t v hm h he hpc
  have hr := running_of_sta h he
  have hload : t.mem.load t.pc = some s.ac := by
    rw [next_load hm h, if_pos (storesTo_eq_true.2 ⟨v, he, hpc.symm⟩)]
  refine ⟨hload, fun ho => (step_of_unknown hr (fetch_eq_unknown.2 ⟨hload, ho⟩)).2, fun hac => ?_⟩
  have hf : fetch t = .instr .hlt := fetch_of_format_z (o := .hlt) rfl (hload.trans (congrArg some hac))
  exact (step_of_fetch hr hf).2

end Sys2Proof.Machine
end

section
/-! PROOFS. Padding and header bytes never affect what executes (30_encoding.md section 3, 20_memory.md R51). -/

namespace Sys2Proof.Machine

variable {s t : State} {i : Instr} {v : Byte}

namespace AgreeOnCells

theorem terminal_eq (h : AgreeOnCells s t) : s.terminal = t.terminal := by rw [State.terminal, State.terminal, h.halt, h.oob]

/-- The fetch reads cells only, where PC is on a cell. -/
theorem fetch_eq (h : AgreeOnCells s t) {k : Nat} (hk : s.pc = 4 + 2 * k) : fetch s = fetch t := by
  have h0 : s.mem.load s.pc = t.mem.load s.pc := by rw [hk]; exact h.cells k
  have h1 : s.mem.load (s.pc + 2) = t.mem.load (s.pc + 2) := by rw [hk]; exact h.cells (k + 1)
  simp only [fetch, cellBytes_eq, ← h.pc, h0, h1]

/-- A data address is a cell. -/
theorem load_translateAddr (h : AgreeOnCells s t) (v : Byte) : s.mem.load (translateAddr v) = t.mem.load (translateAddr v) :=
  h.cells v.toNat

theorem lookup_translateAddr (h : AgreeOnCells s t) (hv : translateAddr v < s.mem.size) :
    Memory.lookup (translateAddr v) s.mem.cells = Memory.lookup (translateAddr v) t.mem.cells := by
  have hl := h.load_translateAddr v
  rwa [Memory.load_of_lt hv, Memory.load_of_lt (h.size ▸ hv), Option.some.injEq] at hl

theorem execEvent_eq (h : AgreeOnCells s t) (i : Instr) : execEvent i s = execEvent i t := by
  cases hd : dataAddress i with
  | none => rw [execEvent_of_no_data hd, execEvent_of_no_data hd]
  | some a => rw [execEvent_of_data hd, execEvent_of_data hd, h.size]

/-- The step reports what cells and registers say. -/
theorem stepEvent_eq (h : AgreeOnCells s t) {k : Nat} (hk : s.pc = 4 + 2 * k) : stepEvent s = stepEvent t := by
  simp only [stepEvent, cycle, h.terminal_eq, h.fetch_eq hk, h.pc]
  split
  · rfl
  · split
    · rfl
    · rfl
    · exact h.execEvent_eq _

/-- What an instruction computes for AC it takes from AC and from the cell at its data address. -/
theorem completed_ac (h : AgreeOnCells s t) (hd : ∀ a, dataAddress i = some a → a < s.mem.size) :
    (completed i s).ac = (completed i t).ac := by
  cases i
  case lda v | add v | or v | and v =>
    have hv := h.lookup_translateAddr (v := v) (hd _ rfl)
    simp only [completed, State.advance_ac, State.setAc_ac, h.ac, hv]
  case jn v | jz v => simp only [completed]; split <;> split <;> exact h.ac
  case not v => exact congrArg (~~~ ·) h.ac
  all_goals exact h.ac

theorem completed_pc (h : AgreeOnCells s t) : (completed i s).pc = (completed i t).pc := by
  cases i
  case jmp v => rfl
  case nop | hlt => exact congrArg (· + 2) h.pc
  case jn v | jz v =>
    simp only [completed, h.n, h.z]
    split
    · rfl
    · exact congrArg (· + 4) h.pc
  all_goals exact congrArg (· + 4) h.pc

/-- Cells agree after a step, since the same STA, or none, stores the same byte. -/
theorem next_cells {s' t' : State} (h : AgreeOnCells s t) (hs : s.mem.wf = true) (ht : t.mem.wf = true)
    (he : stepEvent s = stepEvent t) (hs' : step s = .next s') (ht' : step t = .next t') (k : Nat) :
    s'.mem.load (4 + 2 * k) = t'.mem.load (4 + 2 * k) := by
  rw [next_load hs hs', next_load ht ht', he, h.ac, h.cells k]

/-- A step keeps the agreement: the same event leaves the same registers. -/
theorem next {s' t' : State} (h : AgreeOnCells s t) (hs : s.mem.wf = true) (ht : t.mem.wf = true)
    (he : stepEvent s = stepEvent t) (hs' : step s = .next s') (ht' : step t = .next t') : AgreeOnCells s' t' := by
  have hsize : s'.mem.size = t'.mem.size := by rw [next_mem_size hs', next_mem_size ht', h.size]
  have hcells := h.next_cells hs ht he hs' ht'
  have es := next_eq_afterEvent hs'
  have et := next_eq_afterEvent ht'
  rw [← he] at et
  cases e : stepEvent s <;> rw [e] at es et <;> subst es et
  case noOp => exact h
  case executed i =>
    obtain ⟨-, -, -, hd⟩ := next_of_executed hs' e
    have hac := h.completed_ac hd
    exact ⟨hsize, hcells, hac, h.completed_pc, congrArg (fun b => (flagsOf b).1) hac, congrArg (fun b => (flagsOf b).2) hac,
      completed_halt.trans (h.halt ▸ completed_halt.symm), completed_oob.trans (h.oob.trans completed_oob.symm)⟩
  case skipped => exact ⟨hsize, hcells, h.ac, congrArg (· + 2) h.pc, h.z, h.n, h.halt, h.oob⟩
  case outOfBounds => exact ⟨hsize, hcells, h.ac, h.pc, h.z, h.n, h.halt, rfl⟩

end AgreeOnCells

/-- Settles O32, by induction on the run: PC stays on a cell and both memories canonical, so each step gives the same event
and keeps the agreement. -/
theorem paddingNeverAffectsExecution : Obligations.PaddingNeverAffectsExecution := by
  intro k s t hs ht hpc h
  induction k generalizing s t with
  | zero => exact ⟨rfl, h⟩
  | succ k ih =>
    obtain ⟨c, hc⟩ := hpc.form
    have hs' := step_eq_stepState s
    have ht' := step_eq_stepState t
    have he := h.stepEvent_eq hc
    obtain ⟨hevents, hagree⟩ :=
      ih _ _ (next_mem_wf hs hs') (next_mem_wf ht ht') (next_pcInv hpc hs') (h.next hs ht he hs' ht')
    exact ⟨by rw [eventsFor, eventsFor, he, hevents], hagree⟩

end Sys2Proof.Machine
end

section
/-! PROOFS. Run to halt is the first terminal state of the run (40_cycle.md R111). -/

namespace Sys2Proof.Machine

variable {s t : State} {k : Nat}

/-- The run from `s` first becomes terminal after `k` steps, in `t`. -/
def EndsAt (k : Nat) (s t : State) : Prop :=
  runFor k s = t ∧ t.terminal = true ∧ ∀ j, j < k → (runFor j s).Running

theorem endsAt_zero : EndsAt 0 s t ↔ s = t ∧ t.terminal = true :=
  ⟨fun ⟨hs, ht, _⟩ => ⟨hs, ht⟩, fun ⟨hs, ht⟩ => ⟨hs, ht, nofun⟩⟩

/-- A run that ends later first makes a step from a running state. -/
theorem endsAt_succ : EndsAt (k + 1) s t ↔ s.Running ∧ EndsAt k (stepState s) t := by
  constructor
  · rintro ⟨hs, ht, hrun⟩
    exact ⟨hrun 0 (Nat.succ_pos k), hs, ht, fun j hj => hrun (j + 1) (Nat.succ_lt_succ hj)⟩
  · rintro ⟨hr, hs, ht, hrun⟩
    refine ⟨hs, ht, fun j hj => ?_⟩
    cases j with
    | zero => exact hr
    | succ j => exact hrun j (Nat.lt_of_succ_lt_succ hj)

theorem runToHalt_of_terminal (h : s.terminal = true) (fuel : Nat) : runToHalt fuel s = some s := by
  cases fuel <;> simp [runToHalt, h]

/-- A terminal state is the end of its run, reached in no step. -/
theorem endsAt_of_terminal (h : s.terminal = true) : EndsAt k s t ↔ k = 0 ∧ s = t := by
  cases k with
  | zero => rw [endsAt_zero]; exact ⟨fun ⟨hs, _⟩ => ⟨rfl, hs⟩, fun ⟨_, hs⟩ => ⟨hs, hs ▸ h⟩⟩
  | succ k => simp [endsAt_succ, State.Running, h]

/-- A running state has not ended yet: what ends its run is found a step later. -/
theorem exists_endsAt_of_running (h : s.Running) {fuel : Nat} :
    (∃ k, k ≤ fuel + 1 ∧ EndsAt k s t) ↔ ∃ k, k ≤ fuel ∧ EndsAt k (stepState s) t := by
  constructor
  · rintro ⟨k, hk, he⟩
    cases k with
    | zero => obtain ⟨rfl, ht⟩ := endsAt_zero.1 he; exact absurd (h.symm.trans ht) Bool.false_ne_true
    | succ k => exact ⟨k, Nat.le_of_succ_le_succ hk, (endsAt_succ.1 he).2⟩
  · rintro ⟨k, hk, he⟩
    exact ⟨k + 1, Nat.succ_le_succ hk, endsAt_succ.2 ⟨h, he⟩⟩

/-- By induction on the fuel: a terminal state is answered at once, a running one spends one step. -/
theorem runToHalt_eq_some {fuel : Nat} : runToHalt fuel s = some t ↔ ∃ k, k ≤ fuel ∧ EndsAt k s t := by
  induction fuel generalizing s with
  | zero =>
    simp only [Nat.le_zero, exists_eq_left, endsAt_zero]
    cases h : s.terminal with
    | true => rw [runToHalt_of_terminal h, Option.some.injEq]; exact ⟨fun hs => ⟨hs, hs ▸ h⟩, And.left⟩
    | false => simp only [runToHalt, h]; exact ⟨nofun, fun ⟨hs, ht⟩ => absurd (h.symm.trans (hs ▸ ht)) Bool.false_ne_true⟩
  | succ fuel ih =>
    cases h : s.terminal with
    | true => simp [runToHalt_of_terminal h, endsAt_of_terminal h]
    | false => rw [exists_endsAt_of_running h, ← ih]; simp [runToHalt, h]

/-- Settles O34: fuel bounds the number of steps, and some fuel is enough for every end. -/
theorem runToHaltGivesTheFirstTerminalState : Obligations.RunToHaltGivesTheFirstTerminalState :=
  ⟨fun _ _ _ => runToHalt_eq_some,
    fun _ _ => ⟨fun ⟨k, he⟩ => ⟨k, runToHalt_eq_some.2 ⟨k, le_rfl, he⟩⟩,
      fun ⟨_, h⟩ => (runToHalt_eq_some.1 h).imp fun _ => And.right⟩,
    fun fuel _ h => runToHalt_of_terminal h fuel⟩

end Sys2Proof.Machine
end

section
/-! PROOFS. The disassembler's tokens and the host's observations (45_disassembler.md R181 to R183, 10_state.md R31, R36). -/

namespace Sys2Proof.Machine

variable {s : State} {m : Memory} {k n o : Nat} {mode want : ScanMode}

/-! Tokens. -/

theorem disassemble_length (m : Memory) : (disassemble m).length = m.cellCount := by
  rw [disassemble, List.length_map, scanBuffer, scan_length]

/-- Each valid cell's token, in the mode the scan reads it. -/
theorem getElem?_disassemble (h : 4 + 2 * k < m.size) : (disassemble m)[k]? =
    some (tokenText (scanToken (modeAt m .expectInstruction 4 k) (Memory.lookup (4 + 2 * k) m.cells))) := by
  rw [disassemble, List.getElem?_map, scanBuffer, getElem?_scan (Memory.lt_cellCount.2 h)]
  rfl

/-- The rule of a token, spelled (45_disassembler.md R182). -/
theorem tokenText_scanToken (mode : ScanMode) (b : Byte) : tokenText (scanToken mode b) =
    match mode, decodeOpcode b with
    | .expectInstruction, some o => o.mnemonic
    | .expectInstruction, none => decimal b
    | .expectOperand, _ => decimal b := by
  cases mode with
  | expectOperand => cases decodeOpcode b <;> rfl
  | expectInstruction => cases h : decodeOpcode b <;> simp [scanToken, h, tokenText]

/-- The rule of the next mode: every opcode but NOP and HLT expects an operand (45_disassembler.md R182). -/
theorem scanNext_eq (mode : ScanMode) (b : Byte) : scanNext mode b =
    match mode, decodeOpcode b with
    | .expectInstruction, some .nop => .expectInstruction
    | .expectInstruction, some .hlt => .expectInstruction
    | .expectInstruction, some _ => .expectOperand
    | .expectInstruction, none => .expectInstruction
    | .expectOperand, _ => .expectInstruction := by
  cases mode with
  | expectOperand => cases decodeOpcode b <;> rfl
  | expectInstruction =>
    cases h : decodeOpcode b with
    | none => simp [scanNext, h]
    | some o => cases o <;> simp [scanNext, h] <;> rfl

/-- Settles O48: the modes are the scan's own, and each cell's token and next mode are given by the two rules. -/
theorem disassemblerIsTheTwoModeScan : Obligations.DisassemblerIsTheTwoModeScan := by
  refine ⟨fun m => ⟨modeAt m .expectInstruction 4, rfl, fun k => ⟨fun h => ?_, fun h => ?_⟩⟩, by decide⟩
  · refine ⟨_, Memory.load_of_lt h, ?_, ?_⟩
    · exact (getElem?_disassemble h).trans (congrArg some (tokenText_scanToken _ _))
    · exact scanNext_eq _ _
  · rw [List.getElem?_eq_none_iff, disassemble_length]
    exact Nat.le_of_not_lt fun hk => Nat.not_lt.2 h (Memory.lt_cellCount.1 hk)

/-- Settles O49: the scan takes one cell for each token. -/
theorem oneTokenForEachValidCell : Obligations.OneTokenForEachValidCell :=
  ⟨fun m _ => disassemble_length m,
    fun m h => List.length_eq_zero_iff.1 ((disassemble_length m).trans (by rw [Memory.cellCount, h]))⟩

/-! Decimals. -/

/-- The character of a digit has the digit's code. -/
theorem digit_toNat {d : Nat} (h : d < 10) : (digit d).toNat = 48 + d := by
  revert d
  decide

/-- Settles O50: the digits of a byte read back, case by case in how many it needs. -/
theorem valueTokenIsPlainDecimal : Obligations.ValueTokenIsPlainDecimal := by
  intro b
  have hb := b.isLt
  simp only [decimal, String.toList_ofList]
  split
  · have h0 := digit_toNat (d := b.toNat) (by omega)
    simp [h0]; omega
  · split
    · have h1 := digit_toNat (d := b.toNat / 10) (by omega)
      have h0 := digit_toNat (d := b.toNat % 10) (by omega)
      simp [h0, h1]; omega
    · have h2 := digit_toNat (d := b.toNat / 100) (by omega)
      have h1 := digit_toNat (d := b.toNat / 10 % 10) (by omega)
      have h0 := digit_toNat (d := b.toNat % 10) (by omega)
      simp [h0, h1, h2]; omega

/-! Observations. -/

theorem vpc_eq {k : Nat} (h : s.pc = 4 + 2 * k) : s.vpc = k := by
  rw [State.vpc, h, headerBytes_eq, cellBytes_eq]
  omega

theorem status_eq_running : s.status = .running ↔ s.Running := by
  unfold State.status State.Running State.terminal
  cases s.halt <;> cases s.oob <;> simp

theorem status_eq_halted : s.status = .halted ↔ s.halt = true := by
  unfold State.status
  cases s.halt <;> cases s.oob <;> simp

theorem status_eq_outOfBounds (h : s.halt = true → s.oob = none) {ph : Phase} :
    s.status = .outOfBounds ph o ↔ s.oob = some ⟨ph, o⟩ := by
  unfold State.status
  cases hh : s.halt with
  | true => simp [h hh]
  | false =>
    cases s.oob with
    | none => simp
    | some e => obtain ⟨p, a⟩ := e; simp

/-- Settles O52: registers and buffer are read as they are, VPC is the cell PC stands on, and `status` tells the two terminal
conditions apart because they exclude each other. -/
theorem observationsReadTheState : Obligations.ObservationsReadTheState := by
  intro s hi
  obtain ⟨k, hk⟩ := hi.pcInv.form
  exact ⟨rfl, rfl, rfl, rfl, by rw [hk]; exact congrArg (4 + 2 * ·) (vpc_eq hk), Memory.toBytes_length,
    fun _ => Memory.getElem?_toBytes, rfl, status_eq_running, status_eq_halted,
    fun _ _ => status_eq_outOfBounds hi.statusInv.exclusive⟩

end Sys2Proof.Machine
end

section
/-! PROOFS. The disassembler's scan aligns with the engine (45_disassembler.md R184). -/

namespace Sys2Proof.Machine

variable {s : State} {m : Memory} {b : Byte} {k n o : Nat} {mode want : ScanMode}

/-! The scan, by mode. -/

/-- The offsets that a scan of `n` cells from `o` on, begun in `mode`, reads in the mode `want`. -/
def scannedFrom (want : ScanMode) (m : Memory) (n : Nat) (mode : ScanMode) (o : Nat) : List Nat :=
  ((scan m n mode o).filter fun c => c.2.1 == want).map fun c => c.1

theorem scannedIn_eq : scannedIn want m = scannedFrom want m m.cellCount .expectInstruction 4 := rfl

theorem scannedFrom_succ_same : scannedFrom mode m (n + 1) mode o =
    o :: scannedFrom mode m n (scanNext mode (Memory.lookup o m.cells)) (o + 2) := by
  simp [scannedFrom, scan]

theorem scannedFrom_succ_other (h : mode ≠ want) : scannedFrom want m (n + 1) mode o =
    scannedFrom want m n (scanNext mode (Memory.lookup o m.cells)) (o + 2) := by
  simp [scannedFrom, scan, h]

/-- An opcode byte is two cells long exactly when it is a format A opcode (30_encoding.md R77). -/
theorem lengthCells_eq_two : lengthCells b = 2 ↔ ∃ c, decodeOpcode b = some c ∧ c.hasOperand = true := by
  cases h : decodeOpcode b with
  | none => simp [lengthCells, h]
  | some c => cases hc : c.hasOperand <;> simp [lengthCells, h, hc]

theorem lengthCells_eq_one (hb : lengthCells b ≠ 2) : lengthCells b = 1 := by
  cases h : decodeOpcode b with
  | none => simp [lengthCells, h]
  | some c => cases hc : c.hasOperand <;> simp_all [lengthCells]

/-- The scan expects an operand exactly after the opcodes the engine fetches one for. -/
theorem scanNext_expectInstruction (b : Byte) :
    scanNext .expectInstruction b = if lengthCells b = 2 then .expectOperand else .expectInstruction := by
  cases h : decodeOpcode b with
  | none => simp [scanNext, lengthCells, h]
  | some c => cases hc : c.hasOperand <;> simp [scanNext, lengthCells, h, hc]

/-! The engine. -/

theorem operandOffsets_succ (h : s.mem.load s.pc = some b) : operandOffsets (k + 1) s =
    if lengthCells b = 2 then (s.pc + 2) :: operandOffsets k (stepState s) else operandOffsets k (stepState s) := by
  simp only [operandOffsets, h]

/-- A step that cannot fetch its operand keeps PC (40_cycle.md R105, R108). -/
theorem stepState_pc_of_operand_beyond (h : s.mem.load s.pc = some b) (hb : lengthCells b = 2)
    (hle : s.mem.size ≤ s.pc + 2) : (stepState s).pc = s.pc := by
  cases ht : s.terminal with
  | true => rw [stepState_terminal ht]
  | false =>
    obtain ⟨c, hc, hhas⟩ := lengthCells_eq_two.1 hb
    have hf : fetch s = .outOfBounds .operand (s.pc + 2) := fetch_eq_outOfBounds.2 (.inr ⟨rfl, rfl, hle, b, c, h, hc, hhas⟩)
    rw [stepState_of_step (outOfBoundsCommitsOnlyTheStatus _ _ _ (stepEvent_of_fetch_outOfBounds ht hf))]

/-- A step that falls through past two cells has fetched the second one. -/
theorem operand_lt_of_fallsThrough (h : s.mem.load s.pc = some b) (hb : lengthCells b = 2)
    (hpc : (stepState s).pc = s.pc + 2 * lengthCells b) : s.pc + 2 < s.mem.size := by
  by_contra hle
  rw [stepState_pc_of_operand_beyond h hb (Nat.not_lt.1 hle)] at hpc
  omega

/-- From any cell on, the scan begun there and the engine started there visit the same cells, as long as every step falls
through; `n` is the number of cells left in the buffer. -/
theorem offsets_align (hn : ∀ j, j < n ↔ s.pc + 2 * j < s.mem.size) (hfall : ∀ j, j < k → FallsThrough (runFor j s)) :
    opcodeOffsets k s <+: scannedFrom .expectInstruction s.mem n .expectInstruction s.pc ∧
    operandOffsets k s <+: scannedFrom .expectOperand s.mem n .expectInstruction s.pc := by
  induction k generalizing s n with
  | zero => exact ⟨List.nil_prefix, List.nil_prefix⟩
  | succ k ih =>
    have hfirst : FallsThrough s := hfall 0 (Nat.succ_pos k)
    obtain ⟨b, hload, hpc, hmem⟩ := hfirst
    have hfall' : ∀ j, j < k → FallsThrough (runFor j (stepState s)) := fun j hj => hfall (j + 1) (Nat.succ_lt_succ hj)
    obtain ⟨hlt, hlook⟩ := Memory.load_eq_some.1 hload
    obtain ⟨n, rfl⟩ : ∃ n', n = n' + 1 := Nat.exists_eq_succ_of_ne_zero ((hn 0).2 hlt).ne'
    rw [scannedFrom_succ_same, scannedFrom_succ_other (by simp), hlook, scanNext_expectInstruction,
      operandOffsets_succ hload, opcodeOffsets, List.cons_prefix_cons]
    by_cases hb : lengthCells b = 2
    · have hlt2 := operand_lt_of_fallsThrough hload hb hpc
      obtain ⟨n, rfl⟩ : ∃ n', n = n' + 1 := Nat.exists_eq_succ_of_ne_zero (by have := (hn 1).2 hlt2; omega)
      rw [hb] at hpc
      obtain ⟨h1, h2⟩ := ih (s := stepState s) (n := n) (fun j => by rw [hpc, hmem]; have := hn (j + 2); omega) hfall'
      rw [hpc, hmem] at h1 h2
      rw [if_pos hb, if_pos hb, scannedFrom_succ_same, scannedFrom_succ_other (by simp), List.cons_prefix_cons]
      exact ⟨⟨rfl, h1⟩, rfl, h2⟩
    · rw [lengthCells_eq_one hb] at hpc
      obtain ⟨h1, h2⟩ := ih (s := stepState s) (n := n) (fun j => by rw [hpc, hmem]; have := hn (j + 1); omega) hfall'
      rw [hpc, hmem] at h1 h2
      rw [if_neg hb, if_neg hb]
      exact ⟨⟨rfl, h1⟩, h2⟩

/-- Settles O51: from PC 4 the cells left are all cells of the buffer, which is where the disassembler's scan begins. -/
theorem scanAlignsWithTheEngine : Obligations.ScanAlignsWithTheEngine := by
  intro s k hpc hfall
  have h := offsets_align (n := s.mem.cellCount) (fun j => by rw [hpc]; exact Memory.lt_cellCount) hfall
  rwa [hpc, ← scannedIn_eq, ← scannedIn_eq] at h

end Sys2Proof.Machine
end

section
/-! PROOFS. An assembled source loads and holds each item at its own cell, labels resolved (30_encoding.md R79; log entry
16). -/

namespace Sys2Proof.Machine

variable {labels : List (String × Nat)} {source rest : List AsmLine} {l d : AsmLine} {img body bytes : List Byte}
  {name : String} {a : AsmAddr} {v : Byte} {t : State} {j k : Nat}

/-! Where a line begins. -/

/-- The cells that the first `k` lines take. -/
def cellsBefore (source : List AsmLine) (k : Nat) : Nat := ((source.take k).map fun l => asmCells l.item).sum

theorem lineOffset_eq (source : List AsmLine) (k : Nat) : lineOffset source k = 4 + 2 * cellsBefore source k := rfl

theorem cellsBefore_zero : cellsBefore source 0 = 0 := rfl

theorem cellsBefore_succ : cellsBefore (l :: rest) (k + 1) = asmCells l.item + cellsBefore rest k := rfl

/-! The body. -/

theorem asmBody_cons_eq_ok : asmBody labels (l :: rest) = .ok body ↔
    ∃ bytes more, asmItem labels l.item = .ok bytes ∧ asmBody labels rest = .ok more ∧ body = bytes ++ more := by
  rw [asmBody]
  cases asmItem labels l.item with
  | error e => simp
  | ok bytes => cases asmBody labels rest <;> simp [eq_comm]

/-- The body is the bytes of the lines before, of the line, and of the lines after. -/
theorem asmBody_split (h : asmBody labels source = .ok body) (hk : source[k]? = some l) : ∃ before bytes after,
    body = before ++ (bytes ++ after) ∧ asmItem labels l.item = .ok bytes ∧ before.length = 2 * cellsBefore source k := by
  induction source generalizing k body with
  | nil => simp at hk
  | cons d rest ih =>
    obtain ⟨bytes, more, hd, hrest, rfl⟩ := asmBody_cons_eq_ok.1 h
    cases k with
    | zero =>
      obtain rfl : d = l := Option.some.inj hk
      exact ⟨[], bytes, more, rfl, hd, rfl⟩
    | succ k =>
      obtain ⟨before, bytes', after, rfl, hl, hlen⟩ := ih hrest hk
      refine ⟨bytes ++ before, bytes', after, (List.append_assoc ..).symm, hl, ?_⟩
      rw [List.length_append, asmItem_length hd, hlen, cellsBefore_succ, Nat.mul_add]

/-! The labels. -/

/-- A line's label is in the table with the cell its line begins at. -/
theorem mem_asmLabels (hj : source[j]? = some d) (hd : d.label = some name) :
    (name, k + cellsBefore source j) ∈ asmLabels k source := by
  induction source generalizing j k with
  | nil => simp at hj
  | cons l rest ih =>
    cases j with
    | zero =>
      obtain rfl : l = d := Option.some.inj hj
      simp [asmLabels, hd, cellsBefore_zero]
    | succ j =>
      have hmem := ih (j := j) (k := k + asmCells l.item) hj
      rw [cellsBefore_succ, ← Nat.add_assoc]
      rw [asmLabels]
      cases l.label with
      | none => exact hmem
      | some _ => exact List.mem_cons_of_mem _ hmem

/-- In a table with no name twice, an entry is what its name looks up. -/
theorem lookup_of_mem (hnodup : (labels.map Prod.fst).Nodup) (h : (name, k) ∈ labels) : labels.lookup name = some k := by
  obtain ⟨before, after, rfl⟩ := List.append_of_mem h
  refine List.lookup_eq_some_iff.2 ⟨before, after, rfl, fun p hp => bne_iff_ne.2 fun hname => ?_⟩
  rw [List.map_append, List.map_cons, List.nodup_append] at hnodup
  exact hnodup.2.2 p.1 (List.mem_map_of_mem hp) name List.mem_cons_self hname.symm

/-! Addresses. -/

/-- A well-formed number is its own operand byte. -/
theorem asmAddress_number {x : Nat} (hw : (AsmAddr.number x).wellFormed = true) (h : asmAddress labels (.number x) = .ok v) :
    v.toNat = x := by
  obtain rfl : BitVec.ofNat 8 x = v := Except.ok.inj h
  have hx : x ≤ 255 := of_decide_eq_true hw
  rw [BitVec.toNat_ofNat]
  omega

/-- A label's operand byte is the cell its table entry names. -/
theorem asmAddress_label (hl : labels.lookup name = some k) (h : asmAddress labels (.label name) = .ok v) :
    v.toNat = k := by
  simp only [asmAddress, hl] at h
  split at h
  · obtain rfl := Except.ok.inj h
    rw [BitVec.toNat_ofNat]
    omega
  · cases h

/-! The image. -/

/-- A source that assembles has no label twice, and its image is the header and the body. -/
theorem assemble_eq_image (h : assemble source = .image img) : ((asmLabels 0 source).map Prod.fst).Nodup ∧
    ∃ body, asmBody (asmLabels 0 source) source = .ok body ∧ img = Config.magic ++ body := by
  simp only [assemble] at h
  split at h
  · rename_i hnodup
    cases hb : asmBody (asmLabels 0 source) source with
    | error e => simp [hb] at h
    | ok body =>
      simp only [hb, Assembled.image.injEq] at h
      exact ⟨hnodup, body, rfl, h.symm⟩
  · cases h

/-- The bytes of a line's item stand in the image at the line's own cell. -/
theorem image_split (h : assemble source = .image img) (hk : source[k]? = some l) : ∃ before bytes after,
    img = before ++ (bytes ++ after) ∧ asmItem (asmLabels 0 source) l.item = .ok bytes ∧
      before.length = lineOffset source k := by
  obtain ⟨-, body, hbody, rfl⟩ := assemble_eq_image h
  obtain ⟨before, bytes, after, rfl, hl, hlen⟩ := asmBody_split hbody hk
  exact ⟨Config.magic ++ before, bytes, after, (List.append_assoc ..).symm, hl, by rw [List.length_append, hlen]; rfl⟩

theorem load_assembled (h : assemble source = .image img) : load img = .next (State.ofImage img) := by
  obtain ⟨-, body, -, rfl⟩ := assemble_eq_image h
  exact load_eq_next.2 ⟨imageWellFormed_iff.2 ⟨body, rfl⟩, rfl⟩

/-- Settles O53: the image splits at the line, and what the item can be gives the bytes that stand there. -/
theorem assembledSourceLoadsItemByItem : Obligations.AssembledSourceLoadsItemByItem := by
  intro source img h
  refine ⟨State.ofImage img, load_assembled h, fun k l hk => ?_⟩
  obtain ⟨hnodup, -⟩ := assemble_eq_image h
  obtain ⟨before, bytes, after, rfl, hitem, hlen⟩ := image_split h hk
  have hfetch : ∀ i, bytes = encode i →
      fetch { State.ofImage (before ++ (bytes ++ after)) with pc := lineOffset source k } = .instr i := by
    rintro i rfl
    exact fetch_of_encode rfl hlen.symm
  obtain ⟨hw, ⟨hi, hb⟩ | ⟨hi, hb⟩ | ⟨hi, hb⟩ | ⟨n, hi, hb⟩ | ⟨m, a, v, mk, hi, ha, hm, hb⟩⟩ := asmItem_cases hitem <;>
    rw [hi] at hw ⊢
  · exact ⟨fun _ => hfetch _ hb, nofun, nofun, nofun, nofun⟩
  · exact ⟨nofun, fun _ => hfetch _ hb, nofun, nofun, nofun⟩
  · exact ⟨nofun, nofun, fun _ => hfetch _ hb, nofun, nofun⟩
  · refine ⟨nofun, nofun, nofun, fun n' hn => ?_, nofun⟩
    obtain rfl := AsmItem.byte.inj hn
    refine ⟨of_decide_eq_true hw, ?_⟩
    have hload := load_ofBytes_append before (bytes ++ after) 0
    rw [Nat.add_zero, hlen, hb] at hload
    rw [hb]
    exact hload
  · refine ⟨nofun, nofun, nofun, nofun, fun m' a' hma => ?_⟩
    obtain ⟨rfl, rfl⟩ := AsmItem.address.inj hma
    obtain ⟨hop, hv, -⟩ := format_a hm v
    refine ⟨mk v, v, hfetch _ hb, hop, hv, fun x hx => ?_, fun name j d hname hj hd => ?_⟩
    · subst hx
      exact asmAddress_number (Bool.and_elim_right hw) ha
    · subst hname
      have hcell := asmAddress_label (lookup_of_mem hnodup (mem_asmLabels hj hd)) ha
      rw [translateAddr_eq, hcell, Nat.zero_add, lineOffset_eq]

end Sys2Proof.Machine
end
